-- ==== Sys2Proof/Word.lean ====
section
/-!
DEFINITION. The word types of the block (spec/00_scope.md R10): `uN` is a bit vector of `N` bits.
-/

namespace Sys2Proof

/-- `u8`. -/
abbrev Byte := BitVec 8

/-- `u16`: a row-offset word, a level offset, a column, a buttons word, a palette index. -/
abbrev U16 := BitVec 16

/-- `u32`: a step, an accumulator, a latched word (30_encoding.md R96, R101). -/
abbrev U32 := BitVec 32

/-- One 4-bit sprite pixel or controller nibble. -/
abbrev Nibble := BitVec 4

/-- A command word, 32 bits: `op a b c` from the high byte down (30_encoding.md R108). -/
abbrev Command := BitVec 32

end Sys2Proof
end

