-- ==== Sys2Proof/Config.lean ====
section
/-!
DEFINITION. What is fixed for one machine and is not its state (spec/00_scope.md R6, 10_state.md R42): the
board variant, the OPEN parameters, the tables and ROM images, and the answers of the outside world.
The OPEN ones are ONE constant without a body, `Config.openParams`, so nothing can be proved of their
values. The values the spec decides are given in Machine/Params.lean. Every operation of the model takes a
`Config` as its argument, so that it can also be run under a configuration written out in full.
-/

namespace Sys2Proof

/-- The three board variants (R3). -/
inductive Board where
  | turbo
  | subroc3d
  | buckRogers
  deriving DecidableEq, Repr, Inhabited

/-- `SampleOut`, the result of SAMPLE (30_encoding.md R100). -/
structure SampleOut where
  sprbits : U32
  plbmask : Byte
  deriving DecidableEq, Repr, Inhabited

/-- `GatherIn.ext`, BuckRogers only (43_compositor.md R211, R219): the tile "chg" flags, the star bit and
the scrolling background ROM pixel.  DESIGN CHOICE (log 10, safe): the flags and the pixel, whose widths no
source gives, are natural numbers. -/
structure Ext where
  chg : Nat
  star : Bool
  background : Nat
  deriving DecidableEq, Repr, Inhabited

/-- The record the compositor gathers for one pixel (43_compositor.md R211). -/
structure GatherIn where
  y : Byte
  x : U16
  /-- the foreground tile pixel (R213); its width is in no source (20_memory.md R63) -/
  fg : Nat
  /-- five road bits, bit 4 the fifth lookup (R214) -/
  area : BitVec 5
  spr : SampleOut
  /-- a copy of `CSEL`, index 0 first -/
  csel : List Byte
  ext : Option Ext
  deriving DecidableEq, Repr, Inhabited

/-- `ComposeOut`, the result of COMPOSE (43_compositor.md R212). -/
structure ComposeOut where
  pix : U16
  coll : Byte
  deriving DecidableEq, Repr, Inhabited

/-- One entry of `END_TABLE[BOARD]` (30_encoding.md R98). -/
structure EndEntry where
  ends : Bool
  plb : Bool
  deriving DecidableEq, Repr, Inhabited

/-- The stages inside `SCALE_FN` (40_scaler.md R131 to R136), all OPEN.
DESIGN CHOICE (log 9, safe): the reals of the document are rationals here. -/
structure ScalerParams where
  vr1 : Board → Rat
  vr2 : Board → Rat
  cext : Board → Rat
  cref : Rat
  cextLow : Rat
  /-- `PIXCLK`, hertz.  DESIGN CHOICE (log 23, safe): no value is shut out, 0 included. -/
  pixclk : Rat
  xScale : ℕ+
  /-- `CV(c, VR1, VR2)`, volts (R131) -/
  cv : Byte → Rat → Rat → Rat
  seg1 : Rat → Rat
  seg2 : Rat → Rat
  seg3 : Rat → Rat
  logfit : Rat → Rat
  /-- `RATIO(CEXT, CREF)` (R135) -/
  ratio : Rat → Rat → Rat
  deriving Inhabited

/-- One lookup stage of the compositor: a read of a read-only table at an index assembled from the gathered
inputs and the outputs of the earlier stages, earliest first (43_compositor.md R216). -/
structure Stage where
  index : GatherIn → List Byte → Nat
  table : Nat → Byte
  deriving Inhabited

/-- Two to four chained stages (R216). -/
structure Chain where
  first : Stage
  second : Stage
  third : Option Stage
  fourth : Option Stage
  deriving Inhabited

/-- What the source leaves open inside the compositor (43_compositor.md R213 to R221): the gather
functions and the last step of the table chain. -/
structure CompositorParams where
  /-- output columns on which the Turbo foreground is held in reset (R213, R6; log 11) -/
  fgReset : U16 → Bool
  /-- `va`, the vertical sum of a row (R214) -/
  areaSum : Board → Byte → List Byte → Nat
  /-- `sel_j`, a horizontal select signal (R214) -/
  areaSelect : Board → Fin 4 → Byte → U16 → List Byte → Nat
  /-- `AREA_LOOKUP_j(va, sel_j, x)` (R214) -/
  areaLookup : Board → Fin 4 → Nat → Nat → U16 → Bool
  /-- `AREA5_LOOKUP(y, x, CSEL)` (R214) -/
  area5Lookup : Board → Byte → U16 → List Byte → Bool
  /-- `EXT(y, x, CSEL)`, BuckRogers only (R212) -/
  ext : Byte → U16 → List Byte → Ext
  /-- the lookup-table chain of a board (R216) -/
  chain : Board → Chain
  /-- the mask `p` that the 8-to-3 priority decode takes (42_sprite_sampler.md R194) -/
  priorityMask : Board → GatherIn → Byte
  /-- the Turbo palette index from the gathered inputs and the stage outputs -/
  turboPix : GatherIn → List Byte → U16
  /-- the Turbo collision side output (R221) -/
  turboColl : GatherIn → List Byte → Byte
  /-- the Subroc3D palette index; the selected level and its nibble, if any level is selected (R215) -/
  subrocPix : GatherIn → Option (Fin 8 × Nibble) → List Byte → U16
  /-- BuckRogers cascade (R219): do the tile "chg" flags select the foreground -/
  chgSelects : GatherIn → List Byte → Bool
  fgColour : GatherIn → List Byte → U16
  /-- does the priority lookup driven by `mux` select the sprite -/
  muxSelects : GatherIn → Fin 8 → Nibble → List Byte → Bool
  spriteColour : GatherIn → Fin 8 → Nibble → List Byte → U16
  starColour : GatherIn → List Byte → U16
  backgroundColour : GatherIn → List Byte → U16
  deriving Inhabited

/-- The OPEN parameters of R6, the external images and the answers of the outside world.
Where R6 types one more widely than here, the bound is the model's, marked at its field
(`H_PIXELS`: log 12; `Y_FIRST` and `Y_LAST`, which R6 gives as nat and R113 uses as rows: log 22). -/
structure OpenParams where
  board : Board
  scaler : ScalerParams
  /-- 512 bytes (20_memory.md R60) -/
  rowadvTable : Nat → Byte
  /-- `8 << SPR_PAGE_SHIFT[BOARD]` bytes (20_memory.md R60) -/
  sprRom : Nat → Byte
  endSubroc3d : Nibble → EndEntry
  endBuckRogers : Nibble → EndEntry
  compositor : CompositorParams
  /-- `PAL_BITS[BOARD]`, at most 16 -/
  palBits : Board → Fin 17
  /-- `CSEL_BYTES[BOARD]`, 0 to 256 -/
  cselCount : Board → Fin 257
  /-- `H_PIXELS`.  DEDUCED (log 12, safe): at most the 65536 columns a u16 can name. -/
  columnCount : Fin 65537
  /-- output pixels per tile pixel (43_compositor.md R213; log 21, DEDUCED, safe) -/
  tileRatio : Board → ℕ+
  /-- `Y_FIRST`.  DEDUCED (log 22, safe): a row is a u8, as the operand of LINE. -/
  yFirst : Byte
  /-- `Y_LAST`.  DEDUCED (log 22, safe): a row is a u8, as the operand of LINE. -/
  yLast : Byte
  heFn : Byte → U16 → Byte
  /-- `T_START`, nanoseconds -/
  tStart : Nat
  /-- `T_STEP`, nanoseconds -/
  tStep : Nat
  pack5Mask : U16 → Byte
  /-- `DIGITAL_MAP(req, interface, btn, a0, a1, a2, a3)` (44_controller.md R256) -/
  digitalMap : Bool → Bool → U16 → Byte → Byte → Byte → Byte → Byte
  /-- the button callback, if bound: its answer to the `n`-th callback call (log 13) -/
  buttons : Option (Nat → U16)
  /-- the axis callback, if bound: its answer to the `n`-th callback call, by channel (log 13) -/
  axis : Option (Nat → Fin 4 → Byte)
  /-- the tile source's answer to its `n`-th call: pixel `col` of row `y` (log 14) -/
  tile : Nat → Byte → Nat → Nat
  deriving Inhabited

/-- One machine's configuration: the OPEN parameters, and those the spec decides but lets a model override. -/
structure Config extends OpenParams where
  /-- `ROWADV_ACTIVE` (41_sprite_prep.md R157) -/
  rowadvActive : Bool
  /-- `LIVE_ON_ENABLE` (41_sprite_prep.md R159) -/
  liveOnEnable : Bool
  /-- `END_TABLE[Turbo]` (30_encoding.md R99) -/
  endTurbo : Nibble → EndEntry
  /-- `ACK_EVEN` (44_controller.md R250) -/
  ackEven : Bool
  /-- `ACK_ODD` (44_controller.md R251) -/
  ackOdd : Bool
  deriving Inhabited

/-- `CSEL_BYTES[BOARD]` (10_state.md R32). -/
def Config.cselBytes (c : Config) : Nat := (c.cselCount c.board).val

/-- `H_PIXELS` (43_compositor.md R224). -/
def Config.hPixels (c : Config) : Nat := c.columnCount.val

/-- The OPEN parameters of the machine `exec` and `step` run: uninterpreted (log 7). -/
opaque Config.openParams : OpenParams

end Sys2Proof
end

