-- ==== Sys2Proof/Syntax.lean ====
section
/-!
DEFINITION. The fifteen operations (spec/00_scope.md R2, 30_encoding.md R109), one constructor per row of
spec/opcode_table.json, and the agent each belongs to (R13).
-/

namespace Sys2Proof

/-- An operation with its operands.  A line level is a `Bool`, `true` = 1. -/
inductive Instr where
  /-- NOP (R314) -/
  | nop
  /-- RESET (R310) -/
  | reset
  /-- SPR_W s, k, v (R150) -/
  | sprW (s : Fin 16) (k : Fin 8) (v : Byte)
  /-- CSEL_W i, v (R210) -/
  | cselW (i : Byte) (v : Byte)
  /-- SCALE b (R130) -/
  | scale (b : Byte)
  /-- PREP y (R151) -/
  | prep (y : Byte)
  /-- HSTART m (R164) -/
  | hstart (m : Byte)
  /-- SAMPLE (R180) -/
  | sample
  /-- COMPOSE y, x (R212) -/
  | compose (y : Byte) (x : U16)
  /-- LINE y (R224) -/
  | line (y : Byte)
  /-- REQ_W v (R242) -/
  | reqW (v : Bool)
  /-- MODE_W v (R248) -/
  | modeW (v : Bool)
  /-- IF_W v (R249) -/
  | ifW (v : Bool)
  /-- OUT_R (R254) -/
  | outR
  /-- TICK (R250 to R252) -/
  | tick
  deriving DecidableEq, Repr

/-- Who executes an operation (R13). -/
inductive Agent where
  | video
  | controller
  | both
  deriving DecidableEq, Repr

/-- The agent column of R109; RESET and NOP act on both (R13). -/
def Instr.agent : Instr → Agent
  | .nop => .both
  | .reset => .both
  | .sprW _ _ _ => .video
  | .cselW _ _ => .video
  | .scale _ => .video
  | .prep _ => .video
  | .hstart _ => .video
  | .sample => .video
  | .compose _ _ => .video
  | .line _ => .video
  | .reqW _ => .controller
  | .modeW _ => .controller
  | .ifW _ => .controller
  | .outR => .controller
  | .tick => .controller

end Sys2Proof
end

