-- ==== Sys2Proof/WellFormed.lean ====
section
/-!
DEFINITION. Which operations a configuration accepts (spec/30_encoding.md R110).  The operand types of `Instr`
already carry the checks that need no configuration (slot below 16, byte index below 8, one-bit levels); the
two that do are here.
-/

namespace Sys2Proof

/-- The two configuration-dependent checks of R110: `i < CSEL_BYTES[BOARD]` and `x < H_PIXELS`. -/
def Instr.wellFormed (c : Config) : Instr → Bool
  | .nop => true
  | .reset => true
  | .sprW _ _ _ => true
  | .cselW i _ => decide (i.toNat < c.cselBytes)
  | .scale _ => true
  | .prep _ => true
  | .hstart _ => true
  | .sample => true
  | .compose _ x => decide (x.toNat < c.hPixels)
  | .line _ => true
  | .reqW _ => true
  | .modeW _ => true
  | .ifW _ => true
  | .outR => true
  | .tick => true

end Sys2Proof
end

