-- ==== Sys2Proof/Decode.lean ====
section
/-!
DEFINITION. The command word (spec/30_encoding.md R108 to R111): a decoder total on all 2^32 words that rejects
by name, and the encoder from the same table.
-/

namespace Sys2Proof

/-- Why a word names no operation (R110). -/
inductive Reject where
  /-- `op` is in no row of R109 -/
  | noSuchOp
  /-- a field marked 0 in R109 is not 0 -/
  | fieldNotZero
  /-- SPR_W with `a` above 15 -/
  | slotAbove15
  /-- SPR_W with `b` above 7 -/
  | byteIndexAbove7
  /-- REQ_W, MODE_W or IF_W with `c[7:1]` not 0 -/
  | levelNotABit
  deriving DecidableEq, Repr

/-- `W[31:24]` (R108). -/
def opField (w : Command) : Byte := w.extractLsb' 24 8
/-- `W[23:16]` (R108). -/
def aField (w : Command) : Byte := w.extractLsb' 16 8
/-- `W[15:8]` (R108). -/
def bField (w : Command) : Byte := w.extractLsb' 8 8
/-- `W[7:0]` (R108). -/
def cField (w : Command) : Byte := w.extractLsb' 0 8

/-- A row without operands: `a`, `b` and `c` must be 0. -/
def decodePlain (a b c : Byte) (i : Instr) : Except Reject Instr :=
  if a = 0 ∧ b = 0 ∧ c = 0 then .ok i else .error .fieldNotZero

/-- A row whose only operand is the byte `c`. -/
def decodeByte (a b c : Byte) (f : Byte → Instr) : Except Reject Instr :=
  if a = 0 ∧ b = 0 then .ok (f c) else .error .fieldNotZero

/-- A row whose only operand is the level `c[0]`, with `c[7:1] = 0`. -/
def decodeLevel (a b c : Byte) (f : Bool → Instr) : Except Reject Instr :=
  if a = 0 ∧ b = 0 then
    if c = 0 then .ok (f false) else if c = 1 then .ok (f true) else .error .levelNotABit
  else .error .fieldNotZero

/-- SPR_W: `a` is the slot, `b` the byte index, `c` the value. -/
def decodeSprW (a b c : Byte) : Except Reject Instr :=
  if hs : a.toNat < 16 then
    if hk : b.toNat < 8 then .ok (.sprW ⟨a.toNat, hs⟩ ⟨b.toNat, hk⟩ c) else .error .byteIndexAbove7
  else .error .slotAbove15

/-- CSEL_W: `a` must be 0, `b` is the index, `c` the value. -/
def decodeCselW (a b c : Byte) : Except Reject Instr :=
  if a = 0 then .ok (.cselW b c) else .error .fieldNotZero

/-- The operation map of R109, by field. -/
def decodeFields (op a b c : Byte) : Except Reject Instr :=
  if op = 0x00 then decodePlain a b c .nop
  else if op = 0x01 then decodePlain a b c .reset
  else if op = 0x10 then decodeSprW a b c
  else if op = 0x11 then decodeCselW a b c
  else if op = 0x12 then decodeByte a b c .scale
  else if op = 0x13 then decodeByte a b c .prep
  else if op = 0x14 then decodeByte a b c .hstart
  else if op = 0x15 then decodePlain a b c .sample
  else if op = 0x16 then .ok (.compose a (b ++ c))
  else if op = 0x17 then decodeByte a b c .line
  else if op = 0x20 then decodeLevel a b c .reqW
  else if op = 0x21 then decodeLevel a b c .modeW
  else if op = 0x22 then decodeLevel a b c .ifW
  else if op = 0x23 then decodePlain a b c .outR
  else if op = 0x24 then decodePlain a b c .tick
  else .error .noSuchOp

/-- The operation a command word names, or why it names none. -/
def decode (w : Command) : Except Reject Instr :=
  decodeFields (opField w) (aField w) (bField w) (cField w)

/-- The level operand as the byte `c` (R109, "bit in c[0]"). -/
def levelByte (v : Bool) : Byte := if v then 1 else 0

/-- The word of four byte fields, `op` highest (R108). -/
def word (op a b c : Byte) : Command := (op ++ a) ++ (b ++ c)

/-- The command word of an operation, from the rows of R109. -/
def encode : Instr → Command
  | .nop => word 0x00 0 0 0
  | .reset => word 0x01 0 0 0
  | .sprW s k v => word 0x10 (BitVec.ofNat 8 s.val) (BitVec.ofNat 8 k.val) v
  | .cselW i v => word 0x11 0 i v
  | .scale b => word 0x12 0 0 b
  | .prep y => word 0x13 0 0 y
  | .hstart m => word 0x14 0 0 m
  | .sample => word 0x15 0 0 0
  | .compose y x => word 0x16 y (x.extractLsb' 8 8) (x.extractLsb' 0 8)
  | .line y => word 0x17 0 0 y
  | .reqW v => word 0x20 0 0 (levelByte v)
  | .modeW v => word 0x21 0 0 (levelByte v)
  | .ifW v => word 0x22 0 0 (levelByte v)
  | .outR => word 0x23 0 0 0
  | .tick => word 0x24 0 0 0

/-- The command word of the host's numbering: bit 0 the least significant, bits from `nbits` up zero (R111: every
command is one 32-bit word, so there is no byte order to apply). -/
def tableWord (nbits w : Nat) : Command := BitVec.ofNat 32 (w % 2 ^ nbits)

/-- The instruction the decoder reads from a word of spec/opcode_table.json's numbering. -/
def decodeTableWord (nbits w : Nat) : Option Instr :=
  match decode (tableWord nbits w) with
  | .ok i => some i
  | .error _ => none

/-- One row of spec/opcode_table.json. -/
structure OpcodeRow where
  mnemonic : String
  pattern : Command
  mask : Command
  deriving DecidableEq, Repr

/-- `match` and `mask` of spec/opcode_table.json, row by row. -/
def opcodeRows : List OpcodeRow :=
  [⟨"NOP", 0x00000000, 0xFFFFFFFF⟩, ⟨"RESET", 0x01000000, 0xFFFFFFFF⟩, ⟨"SPR_W", 0x10000000, 0xFFF0F800⟩,
   ⟨"CSEL_W", 0x11000000, 0xFFFF0000⟩, ⟨"SCALE", 0x12000000, 0xFFFFFF00⟩, ⟨"PREP", 0x13000000, 0xFFFFFF00⟩,
   ⟨"HSTART", 0x14000000, 0xFFFFFF00⟩, ⟨"SAMPLE", 0x15000000, 0xFFFFFFFF⟩] ++
  [⟨"COMPOSE", 0x16000000, 0xFF000000⟩, ⟨"LINE", 0x17000000, 0xFFFFFF00⟩, ⟨"REQ_W", 0x20000000, 0xFFFFFFFE⟩,
   ⟨"MODE_W", 0x21000000, 0xFFFFFFFE⟩, ⟨"IF_W", 0x22000000, 0xFFFFFFFE⟩, ⟨"OUT_R", 0x23000000, 0xFFFFFFFF⟩,
   ⟨"TICK", 0x24000000, 0xFFFFFFFF⟩]

/-- Does a word match a row: the bits the mask names are the pattern's. -/
def OpcodeRow.matchesWord (r : OpcodeRow) (w : Command) : Bool := w &&& r.mask == r.pattern

/-- The mnemonic of R109. -/
def Instr.mnemonic : Instr → String
  | .nop => "NOP"
  | .reset => "RESET"
  | .sprW _ _ _ => "SPR_W"
  | .cselW _ _ => "CSEL_W"
  | .scale _ => "SCALE"
  | .prep _ => "PREP"
  | .hstart _ => "HSTART"
  | .sample => "SAMPLE"
  | .compose _ _ => "COMPOSE"
  | .line _ => "LINE"
  | .reqW _ => "REQ_W"
  | .modeW _ => "MODE_W"
  | .ifW _ => "IF_W"
  | .outR => "OUT_R"
  | .tick => "TICK"

end Sys2Proof
end

