-- ==== Sys2Proof/Machine/Params.lean ====
section
/-!
DEFINITION. The parameter values the document or the spec fixes (spec/00_scope.md R6), each literal under one name
(R16) that State.lean, the operations and the meanings share, and the configuration `config` that `exec` runs:
the uninterpreted `Config.openParams` with the spec's decided defaults (log 8).
-/

namespace Sys2Proof.Machine

/-- `UNIT[BOARD]` (42_sprite_sampler.md R184). -/
def unit : Board → U32
  | .turbo => 0x1000000
  | .subroc3d => 0x800000
  | .buckRogers => 0x800000

/-- `SPR_PAGE_SHIFT[BOARD]` (30_encoding.md R94). -/
def pageShift : Board → Nat
  | .turbo => 14
  | .subroc3d => 15
  | .buckRogers => 15

/-- `SPR_ADDR_MASK[BOARD]` (30_encoding.md R94). -/
def addrMask : Board → U16
  | .turbo => 0x3FFF
  | .subroc3d => 0x7FFF
  | .buckRogers => 0x7FFF

/-- `FG_DELAY[BOARD]` (43_compositor.md R213). -/
def fgDelay : Board → Nat
  | .turbo => 8
  | .subroc3d => 0
  | .buckRogers => 0

/-- `IDLE_OUT` (44_controller.md R248). -/
def idleOut : Byte := 0x2F

/-- `BTN_DEFAULT`, the answer of an unbound `Buttons()` (44_controller.md R243). -/
def btnDefault : U16 := 0xFFFF

/-- `AXIS_DEFAULT`, the answer of an unbound `Axis(ch)` (44_controller.md R243). -/
def axisDefault : Byte := 0x00

/-- `NSTEPS`, the timer steps of one shift (44_controller.md R252). -/
abbrev nSteps : Nat := 22

/-- `NNIB`, the nibbles one shift presents (44_controller.md R252, R253). -/
abbrev nNib : Nat := 11

/-- The count the last TICK of a shift carries (44_controller.md R252). -/
def lastCount : Fin nSteps := ⟨nSteps - 1, by decide⟩

/-- The boundary between `SEG1` and `SEG2`, 1.33 volts (40_scaler.md R134). -/
def segLow : Rat := 133 / 100

/-- The boundary between `SEG2` and `SEG3`, 4.3 volts (40_scaler.md R134). -/
def segHigh : Rat := 43 / 10

/-- The Turbo default of `END_TABLE` (30_encoding.md R99): the end codes are 4 to 7, and `plb` is 0. -/
def endTurboDefault (nib : Nibble) : EndEntry where
  ends := nib.extractLsb' 2 2 == 0b01#2
  plb := false

/-- `END_TABLE[BOARD][nib]` (30_encoding.md R98, R99). -/
def endEntry (c : Config) (nib : Nibble) : EndEntry :=
  match c.board with
  | .turbo => c.endTurbo nib
  | .subroc3d => c.endSubroc3d nib
  | .buckRogers => c.endBuckRogers nib

/-- A configuration with the spec's decided defaults (00_scope.md R6; log 8). -/
def defaults (p : OpenParams) : Config where
  toOpenParams := p
  rowadvActive := false
  liveOnEnable := true
  endTurbo := endTurboDefault
  ackEven := true
  ackOdd := false

/-- The configuration of the machine. -/
def config : Config := defaults Config.openParams

end Sys2Proof.Machine
end

