-- ==== Sys2Proof/Machine/State.lean ====
section
/-!
DEFINITION. The state of the block (spec/10_state.md): the video core, the controller engine, and the command
words the environment has yet to put through the block.  Plain data.  What the spec says is not state (R42) is
in Config.lean.
-/

namespace Sys2Proof.Machine

/-- A sparse address space of `w`-bit cells, as (address, value) pairs with addresses strictly rising and no
value 0; an address not listed reads as 0 (logs 5 and 6, DESIGN CHOICE, unsafe).  `Memory 8` is a list of
`Host.Cell`. -/
abbrev Memory (w : Nat) := List (Nat × BitVec w)

/-- The five per-level entries of one level (R26 to R30). -/
structure Level where
  latched : U32
  plb : Bool
  offset : U16
  frac : U32
  step : U32
  deriving DecidableEq, Repr, Inhabited

/-- What a video operation returned (the result column of 30_encoding.md R109). -/
inductive VideoResult where
  | none
  /-- SCALE -/
  | step (v : U32)
  /-- SAMPLE -/
  | sample (v : SampleOut)
  /-- COMPOSE -/
  | pixel (v : ComposeOut)
  deriving DecidableEq, Repr

/-- The video core V (R20 to R33, 20_memory.md R60). -/
structure Video where
  /-- the sprite slot register file: byte `k` of slot `s` (R20, R21) -/
  spr : Vector (Vector Byte 8) 16
  ve : Byte
  lst : Byte
  /-- the per-level arrays, level by level (R26 to R30) -/
  levels : Vector Level 8
  /-- `CSEL` (R32) -/
  csel : Memory 8
  /-- `OUTBUF` (20_memory.md R64), keyed by `pixelKey y x` of Machine/Operands.lean -/
  outbuf : Memory 16
  /-- the model's own: what SCALE, SAMPLE or COMPOSE last returned (log 2, DESIGN CHOICE) -/
  result : VideoResult
  /-- the model's own: how often the tile source has been asked (log 14, DESIGN CHOICE) -/
  tileCalls : Nat
  deriving DecidableEq, Repr

/-- The controller engine K (R34 to R39). -/
structure Pad where
  req : Bool
  /-- `true` = 1 = analog (R35) -/
  mode : Bool
  /-- `true` = 1 = MD (R36) -/
  interface : Bool
  data : Vector Byte 6
  out : Byte
  tpend : Bool
  /-- R39, 30_encoding.md R105: five bits that hold 0 to `NSTEPS - 1` only (log 17, DEDUCED, safe) -/
  tcount : Fin nSteps
  /-- nanoseconds; no operation reads it (60_exceptions.md R288) -/
  tdue : Nat
  /-- the model's own: what OUT_R last returned (log 2, DESIGN CHOICE) -/
  result : Option Byte
  /-- the model's own: how many callback calls have been made (log 13, DESIGN CHOICE) -/
  calls : Nat
  deriving DecidableEq, Repr

/-- The block, and the command words still to come, oldest first (log 1, DESIGN CHOICE). -/
structure State where
  video : Video
  pad : Pad
  cmds : List Command
  deriving DecidableEq, Repr

/-- The block raises no exceptions (60_exceptions.md R280), so there is no fault and no constructor. -/
inductive Fault where
  deriving DecidableEq, Repr

/-- Why the model has no next state.  None of these is a fault of the hardware (60_exceptions.md R282). -/
inductive Refusal where
  /-- an operation without a meaning yet, by its mnemonic: raised by `exec` only; safe -/
  | notModelled (mnemonic : String)
  /-- raised by `step` on a command word that names no operation (30_encoding.md R110); safe -/
  | reservedWord (why : Reject)
  /-- raised by CSEL_W with `i` not below `CSEL_BYTES[BOARD]` (30_encoding.md R110); safe -/
  | cselIndexOutOfRange
  /-- raised by COMPOSE with `x` not below `H_PIXELS` (30_encoding.md R110); safe -/
  | columnOutOfRange
  /-- raised by TICK while `tpend` is false (60_exceptions.md R283); safe -/
  | tickNotPending
  deriving DecidableEq, Repr

/-- A level as State.reset has it (log 4, DESIGN CHOICE, unsafe: R43 gives no value). -/
def Level.zero : Level := ⟨0, false, 0, 0, 0⟩

/-- The video core after reset (R43).  `SPR`, the per-level arrays, `CSEL` and `OUTBUF` are zero by logs 3 to
6 (DESIGN CHOICE, unsafe: the spec leaves them unspecified). -/
def Video.reset : Video where
  spr := Vector.replicate 16 (Vector.replicate 8 0x00)
  ve := 0x00
  lst := 0x00
  levels := Vector.replicate 8 Level.zero
  csel := []
  outbuf := []
  result := .none
  tileCalls := 0

/-- The controller after reset (R43).  `tdue` is 0 by log 16 (DESIGN CHOICE, unsafe: the spec gives none). -/
def Pad.reset : Pad where
  req := true
  mode := true
  interface := false
  data := Vector.replicate 6 0x00
  out := idleOut
  tpend := false
  tcount := 0
  tdue := 0
  result := Option.none
  calls := 0

/-- The machine right after reset (R43), with no command issued. -/
def State.reset : State where
  video := Video.reset
  pad := Pad.reset
  cmds := []

end Sys2Proof.Machine
end

