-- ==== Sys2Proof/Machine/Ops.lean ====
section
/-!
DEFINITION. The named operations over the block's storage: sparse memories, the sprite register file, the level
arrays, the timer and the callbacks (spec/00_scope.md R11, 20_memory.md, 60_exceptions.md R288).  The block has
no exceptions to take or return from (60_exceptions.md R280, R285, R286): its one event, TICK, saves nothing and
redirects nothing, and its delivery is `execTick` in Machine/Controller.lean.
-/

namespace Sys2Proof.Machine

/-- Read one cell; an address not listed reads as 0 (logs 5, 6). -/
def Memory.read {w : Nat} : Memory w → Nat → BitVec w
  | [], _ => 0
  | (k, x) :: rest, a => if k = a then x else Memory.read rest a

/-- Write one cell, keeping addresses rising and no cell 0. -/
def Memory.write {w : Nat} : Memory w → Nat → BitVec w → Memory w
  | [], a, x => if x = 0 then [] else [(a, x)]
  | (k, y) :: rest, a, x =>
    if a < k then
      if x = 0 then (k, y) :: rest else (a, x) :: (k, y) :: rest
    else if a = k then
      if x = 0 then rest else (a, x) :: rest
    else (k, y) :: Memory.write rest a x

/-- The canonical form: addresses strictly rising, and no cell equal to what an unlisted address reads as. -/
abbrev Memory.wf {w : Nat} (m : Memory w) : Prop :=
  m.Pairwise (fun p q => p.1 < q.1) ∧ ∀ p ∈ m, p.2 ≠ 0

/-- The slots in the order PREP takes them (41_sprite_prep.md R152). -/
def slots : List (Fin 16) := [0, 1, 2, 3, 4, 5, 6, 7, 8, 9, 10, 11, 12, 13, 14, 15]

/-- The levels in the order SAMPLE takes them (42_sprite_sampler.md R181). -/
def levelList : List (Fin 8) := [0, 1, 2, 3, 4, 5, 6, 7]

/-- `SprRegRead(s, k)` (00_scope.md R11). -/
def sprRead (v : Video) (s : Fin 16) (k : Fin 8) : Byte := (v.spr[s.val])[k.val]

/-- `SprRegWrite(s, k, x)` (00_scope.md R11). -/
def sprWrite (v : Video) (s : Fin 16) (k : Fin 8) (x : Byte) : Video :=
  { v with spr := v.spr.set s.val ((v.spr[s.val]).set k.val x) }

/-- The per-level entries of level `l`. -/
def Video.level (v : Video) (l : Fin 8) : Level := v.levels[l.val]

/-- Replace the per-level entries of level `l`. -/
def Video.setLevel (v : Video) (l : Fin 8) (x : Level) : Video :=
  { v with levels := v.levels.set l.val x }

/-- `CSEL[i]` (10_state.md R32). -/
def cselRead (v : Video) (i : Nat) : Byte := Memory.read v.csel i

/-- `CSEL[i] <- x` (43_compositor.md R210). -/
def cselWrite (v : Video) (i : Nat) (x : Byte) : Video := { v with csel := Memory.write v.csel i x }

/-- The copy of `CSEL` the compositor gathers: `CSEL_BYTES[BOARD]` bytes, index 0 first (43_compositor.md R211). -/
def cselCopy (c : Config) (v : Video) : List Byte := (List.range c.cselBytes).map (cselRead v)

/-- Replace the video core's state. -/
def State.setVideo (s : State) (v : Video) : State := { s with video := v }

/-- Replace the controller's state. -/
def State.setPad (s : State) (p : Pad) : State := { s with pad := p }

/-- `schedule(d, c)`: arm the timer, replacing anything pending (60_exceptions.md R288). -/
def schedule (p : Pad) (d : Nat) (c : Fin nSteps) : Pad := { p with tpend := true, tcount := c, tdue := d }

/-- `cancel()`: disarm the timer (60_exceptions.md R288). -/
def cancel (p : Pad) : Pad := { p with tpend := false }

/-- The delay of the pending TICK has run out (44_controller.md R250).
DEDUCED (log 16, unsafe): the time left is then 0. -/
def expire (p : Pad) : Pad := { p with tdue := 0 }

/-- The answer of `Buttons()` at the `n`-th callback call (44_controller.md R243). -/
def buttonsAnswer (c : Config) (n : Nat) : U16 :=
  match c.buttons with
  | some f => f n
  | none => btnDefault

/-- The answer of `Axis(ch)` at the `n`-th callback call (44_controller.md R243). -/
def axisAnswer (c : Config) (n : Nat) (ch : Fin 4) : Byte :=
  match c.axis with
  | some f => f n ch
  | none => axisDefault

/-- One reading of the pad: the answers of `Buttons()` and of `Axis(0)` to `Axis(3)`. -/
structure Snapshot where
  btn : U16
  a0 : Byte
  a1 : Byte
  a2 : Byte
  a3 : Byte
  deriving DecidableEq, Repr

/-- `Buttons()` once, then `Axis(0)`, `Axis(1)`, `Axis(2)`, `Axis(3)` once each, in that order (44_controller.md
R243); `n` calls have been made before. -/
def snapshot (c : Config) (n : Nat) : Snapshot where
  btn := buttonsAnswer c n
  a0 := axisAnswer c (n + 1) 0
  a1 := axisAnswer c (n + 2) 1
  a2 := axisAnswer c (n + 3) 2
  a3 := axisAnswer c (n + 4) 3

/-- The five calls of a snapshot have been made. -/
def countCalls (p : Pad) : Pad := { p with calls := p.calls + 5 }

/-- The next command of the total order (20_memory.md R75; log 1), and the state with it taken off. -/
def fetchCommand (s : State) : Option (Command × State) :=
  match s.cmds with
  | [] => none
  | w :: rest => some (w, { s with cmds := rest })

end Sys2Proof.Machine
end

