-- ==== Sys2Proof/Machine/Operands.lean ====
section
/-!
DEFINITION. Operand assembly and table indices (spec/30_encoding.md R90 to R107).
-/

namespace Sys2Proof.Machine

/-- `level(s) = s mod 8` (10_state.md R23). -/
def levelOf (s : Fin 16) : Fin 8 := ⟨s.val % 8, Nat.mod_lt _ (by decide)⟩

/-- `rowinc(s)`, bytes 5 and 4, low byte first (20_memory.md R66). -/
def rowinc (v : Video) (s : Fin 16) : U16 := sprRead v s 5 ++ sprRead v s 4

/-- `rowoff(s)`, bytes 7 and 6, low byte first (20_memory.md R66). -/
def rowoff (v : Video) (s : Fin 16) : U16 := sprRead v s 7 ++ sprRead v s 6

/-- Write `rowoff(s)` back to bytes 6 and 7 (41_sprite_prep.md R158). -/
def setRowoff (v : Video) (s : Fin 16) (x : U16) : Video :=
  sprWrite (sprWrite v s 6 (x.extractLsb' 0 8)) s 7 (x.extractLsb' 8 8)

/-- The row-advance table index: `yscale[3]` above `AL` (30_encoding.md R93). -/
def rowadvIndex (al : Byte) (ys : Byte) : Nat := al.toNat + 256 * (ys.getLsbD 3).toNat

/-- The table bit the y-scale register selects, bit `yscale[2:0]` of the entry (30_encoding.md R91). -/
def rowadvBit (entry : Byte) (ys : Byte) : Bool := entry.getLsbD (ys.extractLsb' 0 3).toNat

/-- The ROM byte index: the level above the masked offset (30_encoding.md R94). -/
def romIndex (b : Board) (l : Fin 8) (o : U16) : Nat :=
  (l.val <<< pageShift b) ||| ((o >>> 1) &&& addrMask b).toNat

/-- The nibble of a ROM byte that offset bit 0 selects: 0 the high half, 1 the low half (20_memory.md R67). -/
def romNibble (byte : Byte) (o : U16) : Nibble :=
  if o.getLsbD 0 then byte.extractLsb' 0 4 else byte.extractLsb' 4 4

/-- Bit `p` of a nibble as a 32-bit word. -/
def planeBit (nib : Nibble) (p : Nat) : U32 := (BitVec.ofBool (nib.getLsbD p)).setWidth 32

/-- `EXPAND[n] = n[0] | n[1] << 8 | n[2] << 16 | n[3] << 24` (30_encoding.md R97). -/
def expand (nib : Nibble) : U32 :=
  planeBit nib 0 ||| (planeBit nib 1 <<< 8) ||| (planeBit nib 2 <<< 16) ||| (planeBit nib 3 <<< 24)

/-- `EXPAND[nib] << l` (42_sprite_sampler.md R186). -/
def latchWord (nib : Nibble) (l : Fin 8) : U32 := expand nib <<< l.val

/-- Lane `l` of a sample word: bits `l`, `8 + l`, `16 + l`, `24 + l` (30_encoding.md R96). -/
def lane (w : U32) (l : Fin 8) : Nibble :=
  BitVec.ofBool (w.getLsbD (24 + l.val)) ++ BitVec.ofBool (w.getLsbD (16 + l.val)) ++
    BitVec.ofBool (w.getLsbD (8 + l.val)) ++ BitVec.ofBool (w.getLsbD l.val)

/-- The bits a level may have set in its latched word (30_encoding.md R96). -/
def laneMask (l : Fin 8) : U32 := 0x01010101#32 <<< l.val

/-- Offset step: +1 when bit 15 is 0, -1 when it is 1, mod 2^16 (42_sprite_sampler.md R189). -/
def nextOffset (o : U16) : U16 := if o.getLsbD 15 then o - 1 else o + 1

/-- The key of `OUTBUF[y][x]`: row-major, a row below 65536 columns (20_memory.md R64; log 6). -/
def pixelKey (y : Byte) (x : U16) : Nat := y.toNat * 65536 + x.toNat

/-- `OUTBUF[y][x]`. -/
def pixelRead (v : Video) (y : Byte) (x : U16) : U16 := Memory.read v.outbuf (pixelKey y x)

/-- `OUTBUF[y][x] <- p` (43_compositor.md R218). -/
def pixelWrite (v : Video) (y : Byte) (x : U16) (p : U16) : Video :=
  { v with outbuf := Memory.write v.outbuf (pixelKey y x) p }

/-- The packed buffer (44_controller.md R245, 30_encoding.md R103). -/
def pack (c : Config) (g : Snapshot) : Vector Byte 6 :=
  #v[g.btn.extractLsb' 0 8 &&& (((g.btn.extractLsb' 8 2).setWidth 8 <<< 2) ||| 0xF3),
     g.a0.extractLsb' 4 4 ++ g.a1.extractLsb' 4 4,
     g.a2.extractLsb' 4 4 ++ g.a3.extractLsb' 4 4,
     g.a0.extractLsb' 0 4 ++ g.a1.extractLsb' 0 4,
     g.a2.extractLsb' 0 4 ++ g.a3.extractLsb' 0 4,
     g.btn.extractLsb' 8 8 &&& c.pack5Mask g.btn]

/-- The step index `tcount[4:1]`: one of the `NNIB` nibbles of a shift (30_encoding.md R105, 44_controller.md R253). -/
def stepIndex (count : Fin nSteps) : Fin nNib := ⟨count.val / 2, by revert count; decide⟩

/-- The nibble of the buffer a step presents: the step index XOR the interface bit (44_controller.md R251, R253). -/
def nibbleIndex (count : Fin nSteps) (interface : Bool) : Fin 12 :=
  ⟨(stepIndex count).val ^^^ interface.toNat, by revert count interface; decide⟩

/-- `NIB(n)`: the high half of `data[n >> 1]` for even `n`, the low half for odd `n` (20_memory.md R68). -/
def bufferNibble (data : Vector Byte 6) (n : Fin 12) : Nibble :=
  if n.val % 2 = 0 then (data[n.val / 2]'(by omega)).extractLsb' 4 4
  else (data[n.val / 2]'(by omega)).extractLsb' 0 4

/-- `out` from its fields: bits 7:6 are 0, then Ack, L/H, the data lines (30_encoding.md R104). -/
def outByte (ack lh : Bool) (d : Nibble) : Byte :=
  0#2 ++ (BitVec.ofBool ack ++ (BitVec.ofBool lh ++ d))

/-- `out[5]` (30_encoding.md R104). -/
def outAck (o : Byte) : Bool := o.getLsbD 5
/-- `out[4]` (30_encoding.md R104). -/
def outLh (o : Byte) : Bool := o.getLsbD 4
/-- `out[3:0]` (30_encoding.md R104). -/
def outData (o : Byte) : Nibble := o.extractLsb' 0 4

end Sys2Proof.Machine
end

