-- ==== Sys2Proof/Machine/Flags.lean ====
section
/-!
DEFINITION. The flag computations: the level masks `ve` and `lst` (spec/10_state.md R24, R25) and the enable ALU
with its transient carries (41_sprite_prep.md R153 to R155).
-/

namespace Sys2Proof.Machine

/-- Bit `l` of a level mask. -/
def levelBit (m : Byte) (l : Fin 8) : Bool := m.getLsbD l.val

/-- A level mask with bit `l` set. -/
def setLevelBit (m : Byte) (l : Fin 8) : Byte := m ||| (1#8 <<< l.val)

/-- A level mask with bit `l` clear. -/
def clearLevelBit (m : Byte) (l : Fin 8) : Byte := m &&& ~~~(1#8 <<< l.val)

/-- `bit << l` as a level mask (the `plbmask` term of 42_sprite_sampler.md R190). -/
def bitAtLevel (b : Bool) (l : Fin 8) : Byte := (BitVec.ofBool b).setWidth 8 <<< l.val

/-- `S1 = y + ~row0` with an 8-bit complement (41_sprite_prep.md R153). -/
def aluFirst (y row0 : Byte) : Nat := y.toNat + (~~~row0).toNat

/-- `S = S1 + (y << 8) + (~row1 << 8)` (41_sprite_prep.md R153). -/
def aluSum (y row0 row1 : Byte) : Nat := aluFirst y row0 + 256 * y.toNat + 256 * (~~~row1).toNat

/-- `clo = S1[8]` (41_sprite_prep.md R153). -/
def aluClo (y row0 : Byte) : Bool := (aluFirst y row0).testBit 8

/-- `chi = S[16]` (41_sprite_prep.md R153). -/
def aluChi (y row0 row1 : Byte) : Bool := (aluSum y row0 row1).testBit 16

/-- `AL = S[7:0]` (41_sprite_prep.md R154). -/
def aluLow (y row0 row1 : Byte) : Byte := BitVec.ofNat 8 (aluSum y row0 row1)

/-- The enable condition `clo & ~chi` (41_sprite_prep.md R155). -/
def aluEnabled (y row0 row1 : Byte) : Bool := aluClo y row0 && !aluChi y row0 row1

end Sys2Proof.Machine
end

