-- ==== Sys2Proof/Machine/Scaler.lean ====
section
/-!
DEFINITION. The Sprite Scaler (spec/40_scaler.md R130 to R143): the stages of R131 to R136 over the OPEN stage
functions of `ScalerParams`, and SCALE.  The stages assume nothing of `SCALE_FN` (R138): Laws/Scaler.lean proves
that every function from bytes to words is one of them.
-/

namespace Sys2Proof.Machine

/-- Stage 2: clamp to [0, 5] volts (R132). -/
def clampVolts (v0 : Rat) : Rat := min 5 (max 0 v0)

/-- The three-segment curve, joined at `segLow` (1.33 V) and `segHigh` (4.3 V), each segment closed on the left (R134). -/
def segCurve (p : ScalerParams) (v : Rat) : Rat :=
  if v < segLow then p.seg1 v else if v < segHigh then p.seg2 v else p.seg3 v

/-- Stage 3: the curve the board's capacitance selects (R133). -/
def curve (p : ScalerParams) (b : Board) (v : Rat) : Rat :=
  if p.cext b < p.cextLow then segCurve p v else p.logfit v

/-- The oscillator's frequency in hertz: control voltage, clamp, curve, capacitance ratio (R131 to R135). -/
def frequency (p : ScalerParams) (b : Board) (x : Byte) : Rat :=
  curve p b (clampVolts (p.cv x (p.vr1 b) (p.vr2 b))) * p.ratio (p.cext b) p.cref

/-- Truncation toward zero (R136). -/
def truncToZero (q : Rat) : Int := if q < 0 then q.ceil else q.floor

/-- Stage 4: `trunc(f / (PIXCLK * X_SCALE) * 2^24)` reduced to u32 (R136).
DESIGN CHOICE (log 23, safe): with `PIXCLK` 0, a case R136 does not consider, the quotient is 0 and so is the step. -/
def toStep (p : ScalerParams) (f : Rat) : U32 :=
  BitVec.ofInt 32 (truncToZero (f / (p.pixclk * ((p.xScale : Nat) : Rat)) * 2 ^ 24))

/-- `SCALE_FN[BOARD](x)` (R130, R138). -/
def scaleFn (c : Config) (x : Byte) : U32 := toStep c.scaler (frequency c.scaler c.board x)

/-- SCALE under a configuration: the result, and no other change (R130, R137). -/
def scaleVideo (c : Config) (b : Byte) (v : Video) : Video := { v with result := .step (scaleFn c b) }

/-- SCALE b (R130). -/
def execScale (b : Byte) (s : State) : Host.Outcome State Fault Refusal :=
  .next (s.setVideo (scaleVideo config b s.video))

end Sys2Proof.Machine
end

