-- ==== Sys2Proof/Machine/SpritePrep.lean ====
section
/-!
DEFINITION. Per-scanline sprite preparation: SPR_W, PREP, HSTART (spec/41_sprite_prep.md R150 to R166).
-/

namespace Sys2Proof.Machine

/-- The enable bit of slot `s` on scanline `y` (R153 to R155). -/
def slotEnabled (v : Video) (s : Fin 16) (y : Byte) : Bool :=
  aluEnabled y (sprRead v s 0) (sprRead v s 1)

/-- The advance decision of an enabled slot (R156, R157). -/
def rowAdvances (c : Config) (v : Video) (s : Fin 16) (y : Byte) : Bool :=
  rowadvBit (c.rowadvTable (rowadvIndex (aluLow y (sprRead v s 0) (sprRead v s 1)) (sprRead v s 3)))
    (sprRead v s 3) == c.rowadvActive

/-- The row advance: the sum mod 2^16 goes back to the slot when the table says so (R158). -/
def advanceRow (c : Config) (y : Byte) (v : Video) (s : Fin 16) : Video :=
  if rowAdvances c v s y then setRowoff v s (rowoff v s + rowinc v s) else v

/-- The level entries an enabled slot leaves, from its registers after the row advance (R159, R160). -/
def freshLevel (c : Config) (v : Video) (s : Fin 16) : Level where
  latched := 0x00000000
  plb := false
  offset := rowoff v s
  frac := 0x00000000
  step := scaleFn c (sprRead v s 2)

/-- The level reset of an enabled slot (R159). -/
def resetLevel (c : Config) (v : Video) (s : Fin 16) : Video :=
  { v.setLevel (levelOf s) (freshLevel c v s) with
    ve := setLevelBit v.ve (levelOf s)
    lst := if c.liveOnEnable then setLevelBit v.lst (levelOf s) else v.lst }

/-- One slot of PREP's loop; a slot that is not enabled changes nothing (R151, R161). -/
def prepSlot (c : Config) (y : Byte) (v : Video) (s : Fin 16) : Video :=
  if slotEnabled v s y then resetLevel c (advanceRow c y v s) s else v

/-- PREP under a configuration: both masks cleared, then the slots in ascending order (R151, R152). -/
def prepVideo (c : Config) (y : Byte) (v : Video) : Video :=
  slots.foldl (prepSlot c y) { v with ve := 0x00, lst := 0x00 }

/-- HSTART on the video core: `lst <- lst | (ve & m)` (R164). -/
def hstartVideo (m : Byte) (v : Video) : Video := { v with lst := v.lst ||| (v.ve &&& m) }

/-- SPR_W s, k, x (R150). -/
def execSprW (s : Fin 16) (k : Fin 8) (x : Byte) (st : State) : Host.Outcome State Fault Refusal :=
  .next (st.setVideo (sprWrite st.video s k x))

/-- PREP y (R151). -/
def execPrep (y : Byte) (s : State) : Host.Outcome State Fault Refusal :=
  .next (s.setVideo (prepVideo config y s.video))

/-- HSTART m (R164). -/
def execHstart (m : Byte) (s : State) : Host.Outcome State Fault Refusal :=
  .next (s.setVideo (hstartVideo m s.video))

end Sys2Proof.Machine
end

