-- ==== Sys2Proof/Machine/Sampler.lean ====
section
/-!
DEFINITION. The per-pixel sprite sampler and its step accumulator: SAMPLE (spec/42_sprite_sampler.md R180 to R196).
-/

namespace Sys2Proof.Machine

/-- One fetch of level `l`: the nibble at the offset, its expansion, its end and priority bits, the offset step,
one unit off the accumulator.  The pair is the level's entries and its live flag (R185 to R189). -/
def fetch (c : Config) (l : Fin 8) (p : Level × Bool) : Level × Bool :=
  let o := p.1.offset
  let nib := romNibble (c.sprRom (romIndex c.board l o)) o
  let e := endEntry c nib
  ({ p.1 with
      latched := latchWord nib l
      plb := e.plb
      offset := nextOffset o
      frac := p.1.frac - unit c.board },
   p.2 && !e.ends)

/-- The most fetches one SAMPLE can make: `2^32 / 0x800000`. -/
def maxFetches : Nat := 512

/-- `while frac[l] >= UNIT[BOARD]: fetch` (R184, R191), cut off after a number of turns the loop never needs:
`maxFetches` is enough for every accumulator value (log 19; Laws/Sampler.lean, `fetchLoop_done`). -/
def fetchLoop (c : Config) (l : Fin 8) : Nat → Level × Bool → Level × Bool
  | 0, p => p
  | n + 1, p => if unit c.board ≤ p.1.frac then fetchLoop c l n (fetch c l p) else p

/-- A live level's turn: the step is added mod 2^32, then the fetch loop runs (R184). -/
def sampleLevel (c : Config) (l : Fin 8) (x : Level) : Level × Bool :=
  fetchLoop c l maxFetches ({ x with frac := x.frac + x.step }, true)

/-- One level of SAMPLE's loop (R182, R183, R188, R190): present, then advance. -/
def sampleStep (c : Config) (acc : Video × SampleOut) (l : Fin 8) : Video × SampleOut :=
  if levelBit acc.1.lst l then
    let x := acc.1.level l
    let r := sampleLevel c l x
    ({ acc.1.setLevel l r.1 with lst := if r.2 then acc.1.lst else clearLevelBit acc.1.lst l },
     { sprbits := acc.2.sprbits ||| x.latched
       plbmask := acc.2.plbmask ||| bitAtLevel x.plb l })
  else acc

/-- SAMPLE under a configuration: the video core after it, and its result (R180). -/
def sample (c : Config) (v : Video) : Video × SampleOut :=
  levelList.foldl (sampleStep c) (v, { sprbits := 0x00000000, plbmask := 0x00 })

/-- SAMPLE as a host operation: the result goes to the result port. -/
def sampleVideo (c : Config) (v : Video) : Video :=
  { (sample c v).1 with result := .sample (sample c v).2 }

/-- SAMPLE (R180). -/
def execSample (s : State) : Host.Outcome State Fault Refusal :=
  .next (s.setVideo (sampleVideo config s.video))

end Sys2Proof.Machine
end

