-- ==== Sys2Proof/Machine/Compositor.lean ====
section
/-!
DEFINITION. The pixel compositor: CSEL_W, COMPOSE, LINE (spec/43_compositor.md R210 to R224), and the 8-to-3
priority decode (42_sprite_sampler.md R194).
-/

namespace Sys2Proof.Machine

/-- The tile column of an output column: divided by the output pixels per tile pixel (R213; log 21, DEDUCED, safe). -/
def tileColumn (c : Config) (x : U16) : Nat := x.toNat / (c.tileRatio c.board : Nat)

/-- `FG(y, x)` at the `n`-th call of the tile source (R213).
DEDUCED (log 11, safe): the reset window is a set of output columns, as R6 types it; `x >= FG_RESET_X`, before or after
the division, is one such set. -/
def foreground (c : Config) (n : Nat) (y : Byte) (x : U16) : Nat :=
  match c.board with
  | .turbo =>
    if tileColumn c x < fgDelay .turbo ∨ c.compositor.fgReset x = true then 0
    else c.tile n y (tileColumn c x - fgDelay .turbo)
  | .subroc3d => c.tile n y (tileColumn c x - fgDelay .subroc3d)
  | .buckRogers => c.tile n y (tileColumn c x - fgDelay .buckRogers)

/-- One of the four area lookups (R214). -/
def areaBit (c : Config) (y : Byte) (x : U16) (csel : List Byte) (j : Fin 4) : Bool :=
  c.compositor.areaLookup c.board j (c.compositor.areaSum c.board y csel)
    (c.compositor.areaSelect c.board j y x csel) x

/-- `AREA(y, x, CSEL)`: `area[4]` is the fifth lookup (R214). -/
def areaBits (c : Config) (y : Byte) (x : U16) (csel : List Byte) : BitVec 5 :=
  BitVec.ofBool (c.compositor.area5Lookup c.board y x csel) ++
    (BitVec.ofBool (areaBit c y x csel 3) ++ (BitVec.ofBool (areaBit c y x csel 2) ++
      (BitVec.ofBool (areaBit c y x csel 1) ++ BitVec.ofBool (areaBit c y x csel 0))))

/-- `EXT(y, x, CSEL)`, on BuckRogers only (R211, R219). -/
def extBits (c : Config) (y : Byte) (x : U16) (csel : List Byte) : Option Ext :=
  match c.board with
  | .turbo => none
  | .subroc3d => none
  | .buckRogers => some (c.compositor.ext y x csel)

/-- The gathered inputs of one pixel (R211, R212). -/
def gather (c : Config) (v : Video) (y : Byte) (x : U16) (spr : SampleOut) : GatherIn where
  y := y
  x := x
  fg := foreground c v.tileCalls y x
  area := areaBits c y x (cselCopy c v)
  spr := spr
  csel := cselCopy c v
  ext := extBits c y x (cselCopy c v)

/-- The output of one more stage of the chain, after those of the earlier stages (R216). -/
def runStage (g : GatherIn) (outs : List Byte) (st : Stage) : List Byte := outs ++ [st.table (st.index g outs)]

/-- The outputs of the two to four stages, in order (R216). -/
def chainOutputs (ch : Chain) (g : GatherIn) : List Byte :=
  (ch.first :: ch.second :: (ch.third.toList ++ ch.fourth.toList)).foldl (runStage g) []

/-- `PRIO(p)`: the highest set bit of the mask, if any (42_sprite_sampler.md R194). -/
def prio (p : Byte) : Option (Fin 8) := levelList.reverse.find? (levelBit p)

/-- The level `mux` selects and its nibble, lane `mux` of `sprbits` (R215, 42_sprite_sampler.md R194). -/
def selectSprite (c : Config) (g : GatherIn) : Option (Fin 8 × Nibble) :=
  (prio (c.compositor.priorityMask c.board g)).map fun mux => (mux, lane g.spr.sprbits mux)

/-- On Turbo the compositor takes `sprbits` alone (R215, 30_encoding.md R100). -/
def turboView (g : GatherIn) : GatherIn := { g with spr := { g.spr with plbmask := 0 } }

/-- The star bit of the gathered inputs (R219). -/
def starBit (g : GatherIn) : Bool :=
  match g.ext with
  | some e => e.star
  | none => false

/-- What comes after the sprite in the BuckRogers cascade: the star, then the scrolling background ROM (R219). -/
def starOrBackground (k : CompositorParams) (g : GatherIn) (outs : List Byte) : U16 :=
  if starBit g then k.starColour g outs else k.backgroundColour g outs

/-- The BuckRogers priority cascade, first match wins (R219). -/
def buckCascade (k : CompositorParams) (g : GatherIn) (sel : Option (Fin 8 × Nibble)) (outs : List Byte) : U16 :=
  if k.chgSelects g outs then k.fgColour g outs
  else
    match sel with
    | some (mux, nib) =>
      if k.muxSelects g mux nib outs then k.spriteColour g mux nib outs else starOrBackground k g outs
    | none => starOrBackground k g outs

/-- A palette index reduced to `PAL_BITS[BOARD]` bits (R217 c). -/
def limitPalette (c : Config) (p : U16) : U16 := BitVec.ofNat 16 (p.toNat % 2 ^ (c.palBits c.board).val)

/-- `COMPOSE_FN[BOARD]` (R215 to R221), with the contract of R217: total, a function of its argument, `pix` below
`2^PAL_BITS`, `coll` 0 off Turbo. -/
def composeFn (c : Config) (g : GatherIn) : ComposeOut :=
  let k := c.compositor
  let outs := chainOutputs (k.chain c.board)
  match c.board with
  | .turbo =>
    { pix := limitPalette c (k.turboPix (turboView g) (outs (turboView g)))
      coll := k.turboColl (turboView g) (outs (turboView g)) }
  | .subroc3d => { pix := limitPalette c (k.subrocPix g (selectSprite c g) (outs g)), coll := 0 }
  | .buckRogers => { pix := limitPalette c (buckCascade k g (selectSprite c g) (outs g)), coll := 0 }

/-- COMPOSE under a configuration: one SAMPLE, the gather (one call of the tile source, log 14), the table chain, one
write of the output buffer (R212).  The result is returned beside the video core. -/
def compose (c : Config) (y : Byte) (x : U16) (v : Video) : Video × ComposeOut :=
  let r := sample c v
  let out := composeFn c (gather c r.1 y x r.2)
  (pixelWrite { r.1 with tileCalls := r.1.tileCalls + 1 } y x out.pix, out)

/-- COMPOSE as a host operation: the result goes to the result port. -/
def composeVideo (c : Config) (y : Byte) (x : U16) (v : Video) : Video :=
  { (compose c y x v).1 with result := .pixel (compose c y x v).2 }

/-- One column of LINE: HSTART with the levels that start there, then COMPOSE (R224). -/
def lineColumn (c : Config) (y : Byte) (v : Video) (x : Nat) : Video :=
  (compose c y (BitVec.ofNat 16 x) (hstartVideo (c.heFn y (BitVec.ofNat 16 x)) v)).1

/-- LINE under a configuration: PREP, then every column in ascending order (R224). -/
def lineVideo (c : Config) (y : Byte) (v : Video) : Video :=
  (List.range c.hPixels).foldl (lineColumn c y) (prepVideo c y v)

/-- CSEL_W under a configuration; refused unless `i < CSEL_BYTES[BOARD]` (R210; 30_encoding.md R110). -/
def cselWUnder (c : Config) (i : Byte) (x : Byte) (s : State) : Host.Outcome State Fault Refusal :=
  if i.toNat < c.cselBytes then .next (s.setVideo (cselWrite s.video i.toNat x))
  else .refused .cselIndexOutOfRange

/-- COMPOSE under a configuration; refused unless `x < H_PIXELS` (R212; 30_encoding.md R110). -/
def composeUnder (c : Config) (y : Byte) (x : U16) (s : State) : Host.Outcome State Fault Refusal :=
  if x.toNat < c.hPixels then .next (s.setVideo (composeVideo c y x s.video))
  else .refused .columnOutOfRange

/-- CSEL_W i, x (R210). -/
def execCselW (i : Byte) (x : Byte) (s : State) : Host.Outcome State Fault Refusal := cselWUnder config i x s

/-- COMPOSE y, x (R212). -/
def execCompose (y : Byte) (x : U16) (s : State) : Host.Outcome State Fault Refusal := composeUnder config y x s

/-- LINE y (R224). -/
def execLine (y : Byte) (s : State) : Host.Outcome State Fault Refusal :=
  .next (s.setVideo (lineVideo config y s.video))

end Sys2Proof.Machine
end

