-- ==== Sys2Proof/Machine/Controller.lean ====
section
/-!
DEFINITION. The controller protocol engine: REQ_W, MODE_W, IF_W, OUT_R and the timer event TICK
(spec/44_controller.md R240 to R260).
-/

namespace Sys2Proof.Machine

/-- A falling strobe edge in analog mode: capture, pack, schedule (R243 to R246). -/
def capture (c : Config) (p : Pad) : Pad :=
  schedule { countCalls p with data := pack c (snapshot c p.calls) } c.tStart 0

/-- REQ_W under a configuration (R242). -/
def reqWrite (c : Config) (v : Bool) (p : Pad) : Pad :=
  if v = p.req then p
  else { (if p.mode = true ∧ v = false then capture c p else p) with req := v }

/-- MODE_W (R248). -/
def modeWrite (v : Bool) (p : Pad) : Pad :=
  if v = p.mode then p
  else if v = false then { cancel p with mode := v, out := idleOut }
  else { p with mode := v }

/-- IF_W (R249). -/
def interfaceWrite (v : Bool) (p : Pad) : Pad := { p with interface := v }

/-- What OUT_R returns in digital mode (R256). -/
def digitalRead (c : Config) (p : Pad) : Byte :=
  let g := snapshot c p.calls
  c.digitalMap p.req p.interface g.btn g.a0 g.a1 g.a2 g.a3

/-- OUT_R under a configuration: the register in analog mode, the digital map of a fresh snapshot in digital mode
(R254 to R256).  Only the model's own result port and call counter change. -/
def outRead (c : Config) (p : Pad) : Pad :=
  if p.mode then { p with result := some p.out }
  else { countCalls p with result := some (digitalRead c p) }

/-- TICK with an even count: L/H toggles, Ack is `ACK_EVEN`, the data lines stay (R250). -/
def tickEven (c : Config) (p : Pad) : Pad :=
  { p with out := outByte c.ackEven (!outLh p.out) (outData p.out) }

/-- TICK with an odd count: one nibble is presented, Ack is `ACK_ODD`, L/H stays (R251). -/
def tickOdd (c : Config) (p : Pad) : Pad :=
  { p with out := outByte c.ackOdd (outLh p.out) (bufferNibble p.data (nibbleIndex p.tcount p.interface)) }

/-- After the step: the next TICK `T_STEP` later, or the stop after count 21 (R252). -/
def reschedule (c : Config) (p : Pad) : Pad :=
  if h : p.tcount.val < lastCount.val then
    schedule p c.tStep ⟨p.tcount.val + 1, Nat.lt_of_le_of_lt h (by decide)⟩
  else cancel p

/-- TICK under a configuration (R250 to R252). -/
def tick (c : Config) (p : Pad) : Pad :=
  reschedule c (if p.tcount.val % 2 = 0 then tickEven c (expire p) else tickOdd c (expire p))

/-- REQ_W v (R242). -/
def execReqW (v : Bool) (s : State) : Host.Outcome State Fault Refusal :=
  .next (s.setPad (reqWrite config v s.pad))

/-- MODE_W v (R248). -/
def execModeW (v : Bool) (s : State) : Host.Outcome State Fault Refusal :=
  .next (s.setPad (modeWrite v s.pad))

/-- IF_W v (R249). -/
def execIfW (v : Bool) (s : State) : Host.Outcome State Fault Refusal :=
  .next (s.setPad (interfaceWrite v s.pad))

/-- OUT_R (R254). -/
def execOutR (s : State) : Host.Outcome State Fault Refusal :=
  .next (s.setPad (outRead config s.pad))

/-- TICK (R250 to R252); refused while no TICK is pending (60_exceptions.md R283). -/
def execTick (s : State) : Host.Outcome State Fault Refusal :=
  if s.pad.tpend then .next (s.setPad (tick config s.pad)) else .refused .tickNotPending

/-- No command is left: the timer delivers its pending TICK, and without one the block is idle and keeps all state
(60_exceptions.md R291, R292; log 15). -/
def idleStep (s : State) : Host.Outcome State Fault Refusal :=
  if s.pad.tpend then execTick s else .next s

end Sys2Proof.Machine
end

