-- ==== Sys2Proof/Machine/System.lean ====
section
/-!
DEFINITION. RESET and NOP (spec/70_reset_and_hazards.md R310 to R314).
-/

namespace Sys2Proof.Machine

/-- RESET on the video core: the two masks only; `SPR`, `CSEL`, the per-level arrays and `OUTBUF` stay (R310, R311). -/
def resetVideo (v : Video) : Video := { v with ve := 0x00, lst := 0x00 }

/-- RESET on the controller (R310). -/
def resetPad (p : Pad) : Pad :=
  { cancel { p with req := true, mode := true, interface := false,
                    data := Vector.replicate 6 0x00, out := idleOut } with tcount := 0 }

/-- NOP (R314). -/
def execNop (s : State) : Host.Outcome State Fault Refusal := .next s

/-- RESET (R310). -/
def execReset (s : State) : Host.Outcome State Fault Refusal :=
  .next ((s.setVideo (resetVideo s.video)).setPad (resetPad s.pad))

end Sys2Proof.Machine
end

