-- ==== Sys2Proof/Machine/Dispatch.lean ====
section
/-!
DEFINITION. The dispatch: one meaning per operation (spec/30_encoding.md R109).
-/

namespace Sys2Proof.Machine

def exec (i : Instr) (s : State) : Host.Outcome State Fault Refusal :=
  match i with
  | .nop => Sys2Proof.Machine.execNop s
  | .reset => Sys2Proof.Machine.execReset s
  | .sprW slot k v => Sys2Proof.Machine.execSprW slot k v s
  | .cselW idx v => Sys2Proof.Machine.execCselW idx v s
  | .scale b => Sys2Proof.Machine.execScale b s
  | .prep y => Sys2Proof.Machine.execPrep y s
  | .hstart m => Sys2Proof.Machine.execHstart m s
  | .sample => Sys2Proof.Machine.execSample s
  | .compose y x => Sys2Proof.Machine.execCompose y x s
  | .line y => Sys2Proof.Machine.execLine y s
  | .reqW v => Sys2Proof.Machine.execReqW v s
  | .modeW v => Sys2Proof.Machine.execModeW v s
  | .ifW v => Sys2Proof.Machine.execIfW v s
  | .outR => Sys2Proof.Machine.execOutR s
  | .tick => Sys2Proof.Machine.execTick s

end Sys2Proof.Machine
end

