-- ==== Sys2Proof/Machine/Step.lean ====
section
/-!
DEFINITION. One step: the next command of the total order is decoded and run; with none left the block idles
(spec/00_scope.md R12, 20_memory.md R75).
-/

namespace Sys2Proof.Machine

/-- One atomic step (R12). -/
def step (s : State) : Host.Outcome State Fault Refusal :=
  match fetchCommand s with
  | none => idleStep s
  | some (w, rest) =>
    match decode w with
    | .ok i => exec i rest
    | .error why => .refused (.reservedWord why)

/-- `s` with the given table word as the next command (log 1). -/
def State.withFetchWord (s : State) (nbits w : Nat) : State :=
  { s with cmds := tableWord nbits w :: s.cmds }

end Sys2Proof.Machine
end

