-- ==== Sys2Proof/Machine/Script.lean ====
section
/-!
DEFINITION. The spec's own script form and pseudo-operations (spec/30_encoding.md R112, R113), and how a program of
operations is put before the block.
-/

namespace Sys2Proof.Machine

/-- A pseudo-operation (R113). -/
inductive Pseudo where
  | slot (s : Fin 16) (row0 row1 xscale yscale : Byte) (rowinc rowoff : U16)
  | samples (n : Nat)
  | ticks (n : Nat)
  | strobe
  | frame
  deriving DecidableEq, Repr

/-- The rows of a frame, `Y_FIRST` to `Y_LAST` ascending (R113). -/
def frameRows (c : Config) : List Byte :=
  ((List.range 256).filter fun n => c.yFirst.toNat ≤ n && n ≤ c.yLast.toNat).map (BitVec.ofNat 8)

/-- The expansion of a pseudo-operation (R113). -/
def Pseudo.expansion (c : Config) : Pseudo → List Instr
  | .slot s row0 row1 xscale yscale inc off =>
    [.sprW s 0 row0, .sprW s 1 row1, .sprW s 2 xscale, .sprW s 3 yscale,
     .sprW s 4 (inc.extractLsb' 0 8), .sprW s 5 (inc.extractLsb' 8 8),
     .sprW s 6 (off.extractLsb' 0 8), .sprW s 7 (off.extractLsb' 8 8)]
  | .samples n => List.replicate n .sample
  | .ticks n => List.replicate n .tick
  | .strobe => [.reqW false, .reqW true]
  | .frame => (frameRows c).map .line

/-- A script line: the mnemonic and its operands in the order a, b, c, without the fields that must be 0 (R112). -/
def scriptLine (i : Instr) : String × List Nat :=
  (i.mnemonic,
   match i with
   | .nop => []
   | .reset => []
   | .sprW s k v => [s.val, k.val, v.toNat]
   | .cselW i v => [i.toNat, v.toNat]
   | .scale b => [b.toNat]
   | .prep y => [y.toNat]
   | .hstart m => [m.toNat]
   | .sample => []
   | .compose y x => [y.toNat, x.toNat]
   | .line y => [y.toNat]
   | .reqW v => [v.toNat]
   | .modeW v => [v.toNat]
   | .ifW v => [v.toNat]
   | .outR => []
   | .tick => [])

/-- Put a list of operations after the commands already issued (20_memory.md R75). -/
def State.issue (s : State) (ops : List Instr) : State := { s with cmds := s.cmds ++ ops.map encode }

/-- Run a list of operations one after another, stopping at the first that has no next state. -/
def execAll : List Instr → State → Host.Outcome State Fault Refusal
  | [], s => .next s
  | i :: rest, s =>
    match exec i s with
    | .next t => execAll rest t
    | .fault r => .fault r
    | .refused r => .refused r

end Sys2Proof.Machine
end

