-- ==== Sys2Proof/Safety.lean ====
section
/-!
DEFINITION. The terms in which claims about the block are made: the enable window, the slots of a level, and the
invariant that every step keeps (spec/10_state.md R31, 42_sprite_sampler.md R195, 44_controller.md R240).
-/

namespace Sys2Proof.Machine

/-- The window of slot `s` contains scanline `y`: `row0 < y < row1` (41_sprite_prep.md R155). -/
abbrev inWindow (v : Video) (s : Fin 16) (y : Byte) : Prop :=
  (sprRead v s 0).toNat < y.toNat ∧ y.toNat < (sprRead v s 1).toNat

/-- The lower slot of level `l` (10_state.md R23). -/
def lowSlot (l : Fin 8) : Fin 16 := ⟨l.val, Nat.lt_of_lt_of_le l.isLt (by decide)⟩

/-- The upper slot of level `l`, processed after the lower one (10_state.md R23). -/
def highSlot (l : Fin 8) : Fin 16 := ⟨l.val + 8, Nat.add_lt_add_right l.isLt 8⟩

/-- What holds of the entries of an enabled level: the latch stays in its lane, the accumulator holds a
remainder, and Turbo has no priority bit (42_sprite_sampler.md R195, R190; 30_encoding.md R99). -/
structure LevelInv (c : Config) (l : Fin 8) (x : Level) : Prop where
  inLane : x.latched &&& ~~~laneMask l = 0
  remainder : x.frac < unit c.board
  turboPlb : c.board = .turbo → x.plb = false

/-- The invariant of the video core. -/
structure VideoInv (c : Config) (v : Video) : Prop where
  cselWf : Memory.wf v.csel
  cselInRange : ∀ p ∈ v.csel, p.1 < c.cselBytes
  outbufWf : Memory.wf v.outbuf
  outbufInRange : ∀ p ∈ v.outbuf, p.1 / 65536 < 256 ∧ p.1 % 65536 < c.hPixels
  outbufPalette : ∀ p ∈ v.outbuf, p.2.toNat < 2 ^ (c.palBits c.board).val
  liveEnabled : v.lst &&& ~~~v.ve = 0
  enabledLevels : ∀ l, levelBit v.ve l = true → LevelInv c l (v.level l)

/-- The invariant of the controller: `out[7:6]` is 0, and in digital mode the engine is idle with the quiescent
output (30_encoding.md R104; 44_controller.md R240, R256). -/
structure PadInv (p : Pad) : Prop where
  outHigh : p.out.extractLsb' 6 2 = 0
  digitalIdle : p.mode = false → p.tpend = false ∧ p.out = idleOut

/-- The invariant every step keeps. -/
structure State.Inv (s : State) : Prop where
  video : VideoInv config s.video
  pad : PadInv s.pad

/-- The operations a state accepts: what the configuration accepts (30_encoding.md R110), and TICK only while it is
pending (60_exceptions.md R283). -/
def accepted (i : Instr) (s : State) : Bool :=
  i.wellFormed config && (i != .tick || s.pad.tpend)

end Sys2Proof.Machine
end

