-- ==== Sys2Proof/Certificates/Slice0/Obligations.lean ====
section
/-!
DEFINITION. The statements for the provers.  Each docstring names the rule of spec/ it formalises; what rests on a
choice of the model names the log entry.  `config` is the machine's uninterpreted configuration, so a statement holds
for every board and every value of the OPEN parameters.
-/

open Sys2Proof Sys2Proof.Machine

/-! ### The command word -/

/-- Decoding an encoded operation gives it back, with every operand at every value (30_encoding.md R108, R109). -/
def Obligations.DecodeOfEncodeIsTheOperation : Prop :=
  ∀ i : Instr, decode (encode i) = .ok i

/-- A word that decodes is the encoding of what it decodes to: each word has one meaning (R108, R109). -/
def Obligations.EncodeOfDecodeIsTheWord : Prop :=
  ∀ (w : Command) (i : Instr), decode w = .ok i → encode i = w

/-- The decoder accepts exactly the words that a row of spec/opcode_table.json matches, and reads the row's operation
(R109, R110).  That a CSEL_W index or a COMPOSE column outside the configured range, which R110 says names no operation, is
taken here and refused by `exec` is the model's choice (log 18). -/
def Obligations.DecoderAcceptsExactlyTheTableRows : Prop :=
  ∀ w : Command,
    (∀ i, decode w = .ok i → ∃ r ∈ opcodeRows, r.matchesWord w = true ∧ r.mnemonic = i.mnemonic) ∧
    (∀ r ∈ opcodeRows, r.matchesWord w = true → ∃ i, decode w = .ok i ∧ i.mnemonic = r.mnemonic)

/-- Words the spec lists, with the operation each stands for, and words it lists as refused (95_test_vectors.md 7). -/
def Obligations.ListedWordsDecodeAsListed : Prop :=
  decode 0x00000000 = .ok .nop ∧ decode 0x01000000 = .ok .reset ∧ decode 0x10030640 = .ok (.sprW 3 6 0x40) ∧
  decode 0x11000007 = .ok (.cselW 0 0x07) ∧ decode 0x13000010 = .ok (.prep 0x10) ∧
  decode 0x16050108 = .ok (.compose 5 0x108) ∧ decode 0x22000001 = .ok (.ifW true) ∧
  decode 0x02000000 = .error .noSuchOp ∧ decode 0x10100000 = .error .slotAbove15 ∧
  decode 0x10000800 = .error .byteIndexAbove7 ∧ decode 0x13010010 = .error .fieldNotZero ∧
  decode 0x20000002 = .error .levelNotABit

/-! ### The step -/

/-- A step takes the next command off the queue and, if it decodes, runs it (00_scope.md R12; the queue is the model's,
log 1). -/
def Obligations.StepRunsTheDecodedCommand : Prop :=
  ∀ (s : State) (w : Command) (rest : List Command) (i : Instr), s.cmds = w :: rest → decode w = .ok i →
    step s = exec i { s with cmds := rest }

/-- Operations issued while nothing else is queued run in the order of issue: the steps of the machine are the operations
one after another, stopping where one is refused (20_memory.md R75, 00_scope.md R12; the queue is the model's, log 1). -/
def Obligations.IssuedOperationsRunInOrder : Prop :=
  ∀ (ops : List Instr) (s : State), s.cmds = [] → core.run ops.length (s.issue ops) = execAll ops s

/-- A step refuses a word that names no operation, saying why (30_encoding.md R110, 60_exceptions.md R282). -/
def Obligations.StepRefusesAReservedWord : Prop :=
  ∀ (s : State) (w : Command) (rest : List Command) (why : Reject), s.cmds = w :: rest → decode w = .error why →
    step s = .refused (.reservedWord why)

/-- With no command left a pending TICK is delivered, and without one nothing changes (60_exceptions.md R291, R292; that
the timer acts exactly then is the model's choice, log 15). -/
def Obligations.StepWithoutCommandsDeliversTickOrIdles : Prop :=
  ∀ s : State, s.cmds = [] →
    (s.pad.tpend = true → step s = exec .tick s) ∧ (s.pad.tpend = false → step s = .next s)

/-- Every operation completes exactly when it is accepted: CSEL_W and COMPOSE inside the configured range, TICK while it
is pending, and every other operation always (60_exceptions.md R280, R282, R283; 30_encoding.md R110). -/
def Obligations.OperationsCompleteExactlyWhenAccepted : Prop :=
  ∀ (i : Instr) (s : State), (∃ t, exec i s = .next t) ↔ accepted i s = true

/-- What is not accepted is refused by name: CSEL_W and COMPOSE outside the configured range, TICK while none is pending,
each in exactly that case (30_encoding.md R110, 60_exceptions.md R283; that each refusal has a name of its own and that `exec`
raises it is the model's choice, log 18). -/
def Obligations.UnacceptedOperationsAreRefusedByName : Prop :=
  ∀ s : State,
    (∀ i x, exec (.cselW i x) s = .refused .cselIndexOutOfRange ↔ config.cselBytes ≤ i.toNat) ∧
    (∀ y x, exec (.compose y x) s = .refused .columnOutOfRange ↔ config.hPixels ≤ x.toNat) ∧
    (exec .tick s = .refused .tickNotPending ↔ s.pad.tpend = false)

/-- An operation of one agent leaves the other agent's state, and the commands to come, alone (00_scope.md R13, 60_exceptions.md
R290). -/
def Obligations.AgentsShareNoState : Prop :=
  ∀ (i : Instr) (s t : State), exec i s = .next t →
    t.cmds = s.cmds ∧ (i.agent = .video → t.pad = s.pad) ∧ (i.agent = .controller → t.video = s.video)

/-- An operation of V and one of K give the same end state in either order (60_exceptions.md R290). -/
def Obligations.VideoAndControllerOperationsCommute : Prop :=
  ∀ (i j : Instr) (s t u : State), i.agent = .video → j.agent = .controller →
    exec i s = .next t → exec j s = .next u → ∃ w, exec j t = .next w ∧ exec i u = .next w

/-! ### Reset -/

/-- The values the spec gives the machine after reset (10_state.md R43). -/
def Obligations.ResetStateHasTheSpecsValues : Prop :=
  State.reset.video.ve = 0x00 ∧ State.reset.video.lst = 0x00 ∧ State.reset.pad.req = true ∧
  State.reset.pad.mode = true ∧ State.reset.pad.interface = false ∧
  (∀ n : Fin 6, State.reset.pad.data[n] = 0x00) ∧ State.reset.pad.out = 0x2F ∧
  State.reset.pad.tpend = false ∧ State.reset.pad.tcount = 0

/-- RESET sets the masks and the controller, and leaves SPR, CSEL, the per-level arrays and OUTBUF (R310, R311).
That it also leaves the result ports (log 2), the call counters (logs 13, 14) and `tdue` (log 16) is the model's choice. -/
def Obligations.ResetCommandSetsMasksAndController : Prop :=
  ∀ s : State, ∃ t, exec .reset s = .next t ∧
    t.video.ve = 0x00 ∧ t.video.lst = 0x00 ∧
    t.pad.req = true ∧ t.pad.mode = true ∧ t.pad.interface = false ∧ (∀ n : Fin 6, t.pad.data[n] = 0x00) ∧
    t.pad.out = 0x2F ∧ t.pad.tpend = false ∧ t.pad.tcount = 0 ∧
    t.video.spr = s.video.spr ∧ t.video.csel = s.video.csel ∧ t.video.levels = s.video.levels ∧
    t.video.outbuf = s.video.outbuf ∧ t.video.result = s.video.result ∧ t.video.tileCalls = s.video.tileCalls ∧
    t.pad.result = s.pad.result ∧ t.pad.calls = s.pad.calls ∧ t.pad.tdue = s.pad.tdue ∧ t.cmds = s.cmds

/-- NOP: state before = state after (R314). -/
def Obligations.NopChangesNothing : Prop :=
  ∀ s : State, exec .nop s = .next s

/-! ### The sprite slot registers and PREP -/

/-- SPR_W writes one byte of one slot and nothing else (R150). -/
def Obligations.SprWriteStoresOneByte : Prop :=
  ∀ (a : Fin 16) (k : Fin 8) (x : Byte) (s : State), ∃ t, exec (.sprW a k x) s = .next t ∧
    (∀ a' k', sprRead t.video a' k' = if a' = a ∧ k' = k then x else sprRead s.video a' k') ∧
    t.video.ve = s.video.ve ∧ t.video.lst = s.video.lst ∧ t.video.levels = s.video.levels ∧
    t.video.csel = s.video.csel ∧ t.video.outbuf = s.video.outbuf ∧ t.video.result = s.video.result ∧
    t.video.tileCalls = s.video.tileCalls ∧ t.pad = s.pad ∧ t.cmds = s.cmds

/-- The two words of a slot are stored low byte first: two SPR_W set each (20_memory.md R66). -/
def Obligations.SlotWordsAreLowByteFirst : Prop :=
  ∀ (a : Fin 16) (lo hi : Byte) (s : State),
    (∃ t, execAll [.sprW a 6 lo, .sprW a 7 hi] s = .next t ∧ rowoff t.video a = hi ++ lo) ∧
    (∃ t, execAll [.sprW a 4 lo, .sprW a 5 hi] s = .next t ∧ rowinc t.video a = hi ++ lo)

/-- SLOT is eight SPR_W that load one slot, words low byte first, and change nothing else (30_encoding.md R113). -/
def Obligations.SlotPseudoOperationLoadsOneSlot : Prop :=
  ∀ (a : Fin 16) (row0 row1 xscale yscale : Byte) (inc off : U16) (s : State),
    ∃ t, execAll (Pseudo.expansion config (.slot a row0 row1 xscale yscale inc off)) s = .next t ∧
      sprRead t.video a 0 = row0 ∧ sprRead t.video a 1 = row1 ∧ sprRead t.video a 2 = xscale ∧
      sprRead t.video a 3 = yscale ∧ rowinc t.video a = inc ∧ rowoff t.video a = off ∧
      (∀ a' k, a' ≠ a → sprRead t.video a' k = sprRead s.video a' k) ∧
      t = s.setVideo { s.video with spr := t.video.spr }

/-- The enable ALU's carries are two comparisons: `clo` is `row0 < y`, and with it `chi = 0` is `y < row1`
(41_sprite_prep.md R155, an inference the spec draws from R153). -/
def Obligations.EnabledExactlyInsideTheWindow : Prop :=
  ∀ y row0 row1 : Byte,
    (aluClo y row0 = true ↔ row0.toNat < y.toNat) ∧
    (aluEnabled y row0 row1 = true ↔ row0.toNat < y.toNat ∧ y.toNat < row1.toNat)

/-- The widths of the running sum, the chained carry, and its low byte (41_sprite_prep.md R153, R154). -/
def Obligations.RunningSumWidthsAndLowByte : Prop :=
  ∀ y row0 row1 : Byte,
    aluFirst y row0 ≤ 510 ∧ aluSum y row0 row1 ≤ 131070 ∧
    aluChi y row0 row1 = (y.toNat + (~~~row1).toNat + (aluClo y row0).toNat).testBit 8 ∧
    aluLow y row0 row1 = y - row0 - 1

/-- PREP rebuilds both masks: a level is enabled exactly when the window of one of its two slots contains the scanline,
and, `LIVE_ON_ENABLE` being held at the spec's default (log 8), `lst` equals `ve` (41_sprite_prep.md R151, R155, R159; the
window is R155's own inference). -/
def Obligations.PrepRebuildsTheMasks : Prop :=
  ∀ (y : Byte) (s : State), ∃ t, exec (.prep y) s = .next t ∧
    (∀ l, levelBit t.video.ve l = true ↔ inWindow s.video (lowSlot l) y ∨ inWindow s.video (highSlot l) y) ∧
    t.video.lst = t.video.ve

/-- The level state PREP leaves: the upper slot's if it is enabled, else the lower slot's if that is, else what was
there; a fresh level has its latch, priority bit and accumulator 0, the slot's row offset as it stands after this
scanline's write-back, and the scaler's step for the slot's x-scale byte (41_sprite_prep.md R152, R159, R160, R161; the
window is R155's own inference). -/
def Obligations.PrepLeavesTheLastEnabledSlotInALevel : Prop :=
  ∀ (y : Byte) (s : State), ∃ t, exec (.prep y) s = .next t ∧ ∀ l : Fin 8,
    (inWindow s.video (highSlot l) y → t.video.level l =
      ⟨0, false, rowoff t.video (highSlot l), 0, scaleFn config (sprRead s.video (highSlot l) 2)⟩) ∧
    (¬ inWindow s.video (highSlot l) y → inWindow s.video (lowSlot l) y → t.video.level l =
      ⟨0, false, rowoff t.video (lowSlot l), 0, scaleFn config (sprRead s.video (lowSlot l) 2)⟩) ∧
    (¬ inWindow s.video (highSlot l) y → ¬ inWindow s.video (lowSlot l) y → t.video.level l = s.video.level l)

/-- PREP adds the row increment to the row offset of every enabled slot whose table bit is 0 (`ROWADV_ACTIVE` being held at
the spec's default, log 8), mod 2^16, aliased or not; it writes no other register, and nothing outside the sprite
state (41_sprite_prep.md R156, R157, R158, R161, R162; the window is R155's and `AL = y - row0 - 1` R154's own inference from
R153). -/
def Obligations.PrepAdvancesRowOffsetsAndNothingElse : Prop :=
  ∀ (y : Byte) (s : State), ∃ t, exec (.prep y) s = .next t ∧
    (∀ a : Fin 16, rowoff t.video a =
      if inWindow s.video a y ∧
          (config.rowadvTable ((y - sprRead s.video a 0 - 1).toNat +
            256 * ((sprRead s.video a 3).getLsbD 3).toNat)).getLsbD ((sprRead s.video a 3).toNat % 8) = false
      then rowoff s.video a + rowinc s.video a else rowoff s.video a) ∧
    (∀ (a : Fin 16) (k : Fin 8), k ≠ 6 → k ≠ 7 → sprRead t.video a k = sprRead s.video a k) ∧
    t.video.csel = s.video.csel ∧ t.video.outbuf = s.video.outbuf ∧ t.video.result = s.video.result ∧
    t.video.tileCalls = s.video.tileCalls ∧ t.pad = s.pad ∧ t.cmds = s.cmds

/-- HSTART: `lst <- lst | (ve & m)`, and nothing else (R164). -/
def Obligations.HstartMakesEnabledLevelsLive : Prop :=
  ∀ (m : Byte) (s : State), ∃ t, exec (.hstart m) s = .next t ∧
    t.video.lst = s.video.lst ||| (s.video.ve &&& m) ∧ t.video.ve = s.video.ve ∧ t.video.spr = s.video.spr ∧
    t.video.levels = s.video.levels ∧ t.video.csel = s.video.csel ∧ t.video.outbuf = s.video.outbuf ∧
    t.video.result = s.video.result ∧ t.video.tileCalls = s.video.tileCalls ∧ t.pad = s.pad ∧ t.cmds = s.cmds

/-! ### The scaler -/

/-- SCALE returns `SCALE_FN[BOARD](c)` and writes nothing but the result port (R130; the port is the model's, log 2). -/
def Obligations.ScaleReturnsTheStepAndWritesNothing : Prop :=
  ∀ (b : Byte) (s : State),
    exec (.scale b) s = .next (s.setVideo { s.video with result := .step (scaleFn config b) })

/-- The stages assume nothing of the scaler: every function from bytes to 32-bit words is one of them (40_scaler.md R138;
that the stages are rational-valued is the model's choice, log 9). -/
def Obligations.ScalerStagesRealiseEveryTable : Prop :=
  ∀ f : Byte → U32, ∃ p : ScalerParams, ∀ (b : Board) (x : Byte), toStep p (frequency p b x) = f x

/-- Two scale bytes whose control voltages are clamped to the same end give the same step (40_scaler.md R132, R141; on the
model's rational stages, log 9). -/
def Obligations.ClampedVoltagesGiveEqualSteps : Prop :=
  ∀ (p : ScalerParams) (b : Board) (x x' : Byte),
    (5 ≤ p.cv x (p.vr1 b) (p.vr2 b) ∧ 5 ≤ p.cv x' (p.vr1 b) (p.vr2 b)) ∨
      (p.cv x (p.vr1 b) (p.vr2 b) ≤ 0 ∧ p.cv x' (p.vr1 b) (p.vr2 b) ≤ 0) →
    toStep p (frequency p b x) = toStep p (frequency p b x')

/-! ### The sampler -/

/-- SAMPLE returns the OR of the words latched before this pixel in the live levels, and their priority bits; where every
live level's latch is in its lane, lane `l` of the result is the nibble latched in level `l`, or 0 if it is not live
(42_sprite_sampler.md R182, R183, R190; the result port is the model's, log 2). -/
def Obligations.SampleReturnsTheLatchedPixels : Prop :=
  ∀ s : State, ∃ t o, exec .sample s = .next t ∧ t.video.result = .sample o ∧
    (∀ i, o.sprbits.getLsbD i = true ↔
      ∃ l, levelBit s.video.lst l = true ∧ (s.video.level l).latched.getLsbD i = true) ∧
    (∀ l, levelBit o.plbmask l = (levelBit s.video.lst l && (s.video.level l).plb)) ∧
    ((∀ l, levelBit s.video.lst l = true → (s.video.level l).latched &&& ~~~laneMask l = 0) →
      ∀ l, lane o.sprbits l = if levelBit s.video.lst l then lane (s.video.level l).latched l else 0)

/-- A live level makes one fetch per whole unit in `(frac + step) mod 2^32`, keeps the remainder in its accumulator and
its step; the fetches go on after an end code, and any end code among them clears the live flag
(42_sprite_sampler.md R184, R188, R191). -/
def Obligations.SampleFetchesOncePerWholeUnit : Prop :=
  ∀ s : State, ∃ t, exec .sample s = .next t ∧ ∀ l, levelBit s.video.lst l = true →
    let x := s.video.level l
    let sum : U32 := x.frac + x.step
    let run := (fetch config l)^[sum.toNat / (unit config.board).toNat] ({ x with frac := sum }, true)
    t.video.level l = run.1 ∧ levelBit t.video.lst l = run.2 ∧
    (t.video.level l).frac.toNat = sum.toNat % (unit config.board).toNat ∧ (t.video.level l).step = x.step

/-- A SAMPLE whose sum is one unit and less than two fetches once: the nibble the old offset selects in the level's page
of the ROM is latched in the level's lane, the end table's bits are taken, the offset moves one place by its bit 15, and
the accumulator loses one unit (42_sprite_sampler.md R185 to R189). -/
def Obligations.SampleFetchReadsTheNextNibble : Prop :=
  ∀ (s : State) (l : Fin 8), levelBit s.video.lst l = true →
    (unit config.board).toNat ≤ (s.video.level l).frac.toNat + (s.video.level l).step.toNat →
    (s.video.level l).frac.toNat + (s.video.level l).step.toNat < 2 * (unit config.board).toNat →
    let x := s.video.level l
    let byte := config.sprRom (l.val * 2 ^ pageShift config.board +
      (x.offset.toNat / 2) % 2 ^ pageShift config.board)
    let nib : Nibble := if x.offset.toNat % 2 = 0 then byte.extractLsb' 4 4 else byte.extractLsb' 0 4
    ∃ t, exec .sample s = .next t ∧
      t.video.level l = ⟨expand nib <<< l.val, (endEntry config nib).plb,
        if x.offset.toNat < 32768 then x.offset + 1 else x.offset - 1,
        x.frac + x.step - unit config.board, x.step⟩ ∧
      levelBit t.video.lst l = !(endEntry config nib).ends

/-- A SAMPLE whose sum stays below one unit fetches nothing: only the accumulator changes and the level stays live
(42_sprite_sampler.md R184, R192). -/
def Obligations.SampleBelowOneUnitFetchesNothing : Prop :=
  ∀ (s : State) (l : Fin 8), levelBit s.video.lst l = true →
    (s.video.level l).frac.toNat + (s.video.level l).step.toNat < (unit config.board).toNat →
    ∃ t, exec .sample s = .next t ∧ levelBit t.video.lst l = true ∧
      t.video.level l = { s.video.level l with frac := (s.video.level l).frac + (s.video.level l).step }

/-- SAMPLE changes no level that is not live, sets no live flag, and writes nothing else (42_sprite_sampler.md R180, R182,
R195). -/
def Obligations.SampleLeavesEverythingElse : Prop :=
  ∀ s : State, ∃ t, exec .sample s = .next t ∧
    (∀ l, levelBit s.video.lst l = false → t.video.level l = s.video.level l) ∧
    (∀ l, levelBit t.video.lst l = true → levelBit s.video.lst l = true) ∧
    t.video.ve = s.video.ve ∧ t.video.spr = s.video.spr ∧ t.video.csel = s.video.csel ∧
    t.video.outbuf = s.video.outbuf ∧ t.video.tileCalls = s.video.tileCalls ∧ t.pad = s.pad ∧ t.cmds = s.cmds

/-- For every nibble and level, bit `8p + l` of `EXPAND[nib] << l` is bit `p` of the nibble and every other bit is 0
(42_sprite_sampler.md R186). -/
def Obligations.ExpansionPutsTheNibbleInItsLane : Prop :=
  ∀ (nib : Nibble) (l : Fin 8) (i : Fin 32),
    (latchWord nib l).getLsbD i.val = (decide (i.val % 8 = l.val) && nib.getLsbD (i.val / 8))

/-- The offset moves up by one from a value with bit 15 clear and down by one from one with bit 15 set
(42_sprite_sampler.md R189). -/
def Obligations.OffsetMovesByItsHighBit : Prop :=
  ∀ o : U16,
    (o.toNat < 32768 → (nextOffset o).toNat = o.toNat + 1) ∧
    (32768 ≤ o.toNat → (nextOffset o).toNat = o.toNat - 1)

/-- Every table index is in range by construction (30_encoding.md R107, 60_exceptions.md R281). -/
def Obligations.TableIndicesAreInRange : Prop :=
  (∀ (b : Board) (l : Fin 8) (o : U16), romIndex b l o < 8 * 2 ^ pageShift b) ∧
  (∀ al ys : Byte, rowadvIndex al ys < 512) ∧
  (∀ (count : Fin 22) (interface : Bool), (nibbleIndex count interface).val / 2 < 6)

/-! ### The compositor -/

/-- CSEL_W writes one colour-select byte and nothing else (R210).  The memory is in its canonical form, which every step
keeps (StepKeepsTheInvariant). -/
def Obligations.CselWriteStoresOneByte : Prop :=
  ∀ (i x : Byte) (s : State), i.toNat < config.cselBytes → Memory.wf s.video.csel →
    ∃ t, exec (.cselW i x) s = .next t ∧
      (∀ j, cselRead t.video j = if j = i.toNat then x else cselRead s.video j) ∧
      t.video.spr = s.video.spr ∧ t.video.ve = s.video.ve ∧ t.video.lst = s.video.lst ∧
      t.video.levels = s.video.levels ∧ t.video.outbuf = s.video.outbuf ∧ t.video.result = s.video.result ∧
      t.video.tileCalls = s.video.tileCalls ∧ t.pad = s.pad ∧ t.cmds = s.cmds

/-- COMPOSE runs SAMPLE exactly once, gathers, applies the compositor function, writes one pixel of the output buffer and
returns what it computed (43_compositor.md R212, R218).  The result port (log 2) and that one COMPOSE is one call of the tile
source (log 14) are the model's choices. -/
def Obligations.ComposeSamplesOnceAndWritesOnePixel : Prop :=
  ∀ (y : Byte) (x : U16) (s : State), x.toNat < config.hPixels → Memory.wf s.video.outbuf →
    ∃ t u o, exec (.compose y x) s = .next t ∧ exec .sample s = .next u ∧ u.video.result = .sample o ∧
      t.video.result = .pixel (composeFn config (gather config u.video y x o)) ∧
      (∀ y' x', pixelRead t.video y' x' =
        if y' = y ∧ x' = x then (composeFn config (gather config u.video y x o)).pix else pixelRead s.video y' x') ∧
      t.video.levels = u.video.levels ∧ t.video.lst = u.video.lst ∧ t.video.ve = s.video.ve ∧
      t.video.spr = s.video.spr ∧ t.video.csel = s.video.csel ∧ t.video.tileCalls = s.video.tileCalls + 1 ∧
      t.pad = s.pad ∧ t.cmds = s.cmds

/-- The contract of the compositor function: a palette index below `2^PAL_BITS`, and no collision output off Turbo
(43_compositor.md R217). -/
def Obligations.ComposeFnMeetsItsContract : Prop :=
  ∀ (c : Config) (g : GatherIn),
    (composeFn c g).pix.toNat < 2 ^ (c.palBits c.board).val ∧ (c.board ≠ .turbo → (composeFn c g).coll = 0)

/-- On BuckRogers the cascade takes the first of: the foreground if the chg flags select it, the selected sprite if the
priority lookup selects it, the star if the star bit is set, the scrolling background (43_compositor.md R219; the four
conditions and four colour sources are the model's structure, log 10). -/
def Obligations.BuckRogersCascadeIsFirstMatch : Prop :=
  ∀ (c : Config) (g : GatherIn) (e : Ext), c.board = .buckRogers → g.ext = some e →
    let k := c.compositor
    let outs := chainOutputs (k.chain .buckRogers) g
    (k.chgSelects g outs = true → (composeFn c g).pix = limitPalette c (k.fgColour g outs)) ∧
    (k.chgSelects g outs = false → ∀ mux, prio (k.priorityMask .buckRogers g) = some mux →
      k.muxSelects g mux (lane g.spr.sprbits mux) outs = true →
      (composeFn c g).pix = limitPalette c (k.spriteColour g mux (lane g.spr.sprbits mux) outs)) ∧
    (k.chgSelects g outs = false →
      (∀ mux, prio (k.priorityMask .buckRogers g) = some mux →
        k.muxSelects g mux (lane g.spr.sprbits mux) outs = false) →
      (composeFn c g).pix = limitPalette c (if e.star then k.starColour g outs else k.backgroundColour g outs))

/-- The road bits of a pixel: bits 0 to 3 are four lookups, each keyed by the vertical sum, its own select signal and the
column, and bit 4 is a fifth lookup; COMPOSE gathers them with the CSEL bytes as they stand (43_compositor.md R214, R211; the
model's signatures of the lookups are log 10). -/
def Obligations.RoadBitsComeFromFiveLookups : Prop :=
  ∀ (c : Config) (v : Video) (y : Byte) (x : U16) (spr : SampleOut),
    let csel := (List.range c.cselBytes).map (cselRead v)
    let k := c.compositor
    (gather c v y x spr).csel = csel ∧
    (∀ j : Fin 4, (gather c v y x spr).area.getLsbD j.val =
      k.areaLookup c.board j (k.areaSum c.board y csel) (k.areaSelect c.board j y x csel) x) ∧
    (gather c v y x spr).area.getLsbD 4 = k.area5Lookup c.board y x csel

/-- The column is first divided by the output pixels per tile pixel.  On Turbo the foreground pixel is 0 in the first 8 such
columns and in the reset window, and otherwise the tile pixel 8 columns to the left; on the other boards it is the tile
pixel of the column (43_compositor.md R213; that the window is a set of output columns is the model's reading, log 11, and
where the OPEN ratio enters is log 21). -/
def Obligations.ForegroundIsDelayedOnTurboOnly : Prop :=
  ∀ (c : Config) (n : Nat) (y : Byte) (x : U16),
    let col := x.toNat / (c.tileRatio c.board : Nat)
    (c.board = .turbo → col < 8 ∨ c.compositor.fgReset x = true → foreground c n y x = 0) ∧
    (c.board = .turbo → 8 ≤ col → c.compositor.fgReset x = false → foreground c n y x = c.tile n y (col - 8)) ∧
    (c.board ≠ .turbo → foreground c n y x = c.tile n y col)

/-- The priority decode gives the highest set bit, and none exactly when no bit is set (42_sprite_sampler.md R194). -/
def Obligations.PriorityDecodeGivesTheHighestLevel : Prop :=
  ∀ p : Byte, (prio p = none ↔ p = 0) ∧
    ∀ m : Fin 8, prio p = some m ↔ (levelBit p m = true ∧ ∀ n : Fin 8, m < n → levelBit p n = false)

/-- LINE is PREP followed, column by column, by HSTART and COMPOSE; it returns no result of its own (43_compositor.md R224;
the result port is the model's, log 2). -/
def Obligations.LineIsPrepThenEveryColumn : Prop :=
  ∀ (y : Byte) (s : State), ∃ t u, exec (.line y) s = .next t ∧
    execAll (.prep y :: (List.range config.hPixels).flatMap fun x =>
      [.hstart (config.heFn y (BitVec.ofNat 16 x)), .compose y (BitVec.ofNat 16 x)]) s = .next u ∧
    t = u.setVideo { u.video with result := s.video.result }

/-- LINE writes its own row only, and neither CSEL nor the controller (43_compositor.md R218, R224; that it leaves the
result port is the model's choice, log 2). -/
def Obligations.LineWritesItsOwnRowOnly : Prop :=
  ∀ (y : Byte) (s : State), Memory.wf s.video.outbuf → ∃ t, exec (.line y) s = .next t ∧
    (∀ y' x, y' ≠ y ∨ config.hPixels ≤ x.toNat → pixelRead t.video y' x = pixelRead s.video y' x) ∧
    t.video.csel = s.video.csel ∧ t.video.result = s.video.result ∧ t.pad = s.pad ∧ t.cmds = s.cmds

/-- A line is a function of the slot registers, the colour-select bytes and the answers of the tile source: whatever the
masks, the per-level arrays and the output buffer held before, the row comes out the same, and so do the slot registers
(43_compositor.md R222, 10_state.md R31, inferences the spec draws).  That the answers are drawn by the counter `tileCalls`, so
that both runs start from one value of it, is the model's choice (log 14). -/
def Obligations.LinePixelsDoNotDependOnStaleState : Prop :=
  ∀ (y : Byte) (s s' : State), s.video.spr = s'.video.spr → s.video.csel = s'.video.csel →
    s.video.tileCalls = s'.video.tileCalls → Memory.wf s.video.outbuf → Memory.wf s'.video.outbuf →
    ∃ t t', exec (.line y) s = .next t ∧ exec (.line y) s' = .next t' ∧
      t.video.spr = t'.video.spr ∧ t.video.ve = t'.video.ve ∧ t.video.lst = t'.video.lst ∧
      ∀ x : U16, x.toNat < config.hPixels → pixelRead t.video y x = pixelRead t'.video y x

/-! ### The controller -/

/-- Writing a line the level it has is a no-op (44_controller.md R241). -/
def Obligations.RedundantLineWritesChangeNothing : Prop :=
  ∀ s : State, exec (.reqW s.pad.req) s = .next s ∧ exec (.modeW s.pad.mode) s = .next s ∧
    exec (.ifW s.pad.interface) s = .next s

/-- A falling strobe edge in analog mode captures one snapshot, packs it and schedules the first TICK after `T_START`,
restarting a shift in progress; `out` keeps its value (44_controller.md R242, R246, R247; the answers are drawn by a counter of
the model's, log 13). -/
def Obligations.FallingEdgeCapturesAndSchedules : Prop :=
  ∀ s : State, s.pad.req = true → s.pad.mode = true → ∃ t, exec (.reqW false) s = .next t ∧
    t.pad.req = false ∧ t.pad.data = pack config (snapshot config s.pad.calls) ∧ t.pad.calls = s.pad.calls + 5 ∧
    t.pad.tpend = true ∧ t.pad.tcount = 0 ∧ t.pad.tdue = config.tStart ∧ t.pad.out = s.pad.out ∧
    t.pad.mode = s.pad.mode ∧ t.pad.interface = s.pad.interface ∧ t.pad.result = s.pad.result ∧
    t.video = s.video ∧ t.cmds = s.cmds

/-- A rising edge, and any edge in digital mode, only records the level (44_controller.md R242, R258). -/
def Obligations.OtherEdgesOnlyRecordTheLevel : Prop :=
  ∀ (v : Bool) (s : State), v = true ∨ s.pad.mode = false →
    exec (.reqW v) s = .next (s.setPad { s.pad with req := v })

/-- The packed buffer, bit by bit: byte 0 lets bits 7:4 and 1:0 of the buttons through and ANDs bits 3:2 with buttons
9:8; nibbles 2 to 9 are the high then the low halves of the axes in channel order; byte 5 is buttons 15:8 under the OPEN
mask (44_controller.md R245). -/
def Obligations.PackedBufferLayout : Prop :=
  ∀ (c : Config) (g : Snapshot),
    let d := pack c g
    (∀ i : Fin 8, d[0].getLsbD i.val =
      (g.btn.getLsbD i.val && (i.val != 2 && i.val != 3 || g.btn.getLsbD (i.val + 6)))) ∧
    bufferNibble d 2 = g.a0.extractLsb' 4 4 ∧ bufferNibble d 3 = g.a1.extractLsb' 4 4 ∧
    bufferNibble d 4 = g.a2.extractLsb' 4 4 ∧ bufferNibble d 5 = g.a3.extractLsb' 4 4 ∧
    bufferNibble d 6 = g.a0.extractLsb' 0 4 ∧ bufferNibble d 7 = g.a1.extractLsb' 0 4 ∧
    bufferNibble d 8 = g.a2.extractLsb' 0 4 ∧ bufferNibble d 9 = g.a3.extractLsb' 0 4 ∧
    (∀ i : Fin 8, d[5].getLsbD i.val = (g.btn.getLsbD (i.val + 8) && (c.pack5Mask g.btn).getLsbD i.val))

/-- An unbound button callback answers 0xFFFF and an unbound axis callback 0x00 (44_controller.md R243). -/
def Obligations.UnboundCallbacksAnswerTheDefaults : Prop :=
  ∀ (c : Config) (n : Nat),
    (c.buttons = none → (snapshot c n).btn = 0xFFFF) ∧
    (c.axis = none → (snapshot c n).a0 = 0x00 ∧ (snapshot c n).a1 = 0x00 ∧ (snapshot c n).a2 = 0x00 ∧
      (snapshot c n).a3 = 0x00)

/-- Switching to digital mode cancels the pending TICK and sets `out` to 0x2F; switching to analog mode writes the mode
only; writing the mode it has does nothing (44_controller.md R248). -/
def Obligations.ModeSwitchCancelsOnlyTowardsDigital : Prop :=
  ∀ s : State,
    (s.pad.mode = true → exec (.modeW false) s =
      .next (s.setPad { s.pad with mode := false, tpend := false, out := 0x2F })) ∧
    (s.pad.mode = false → exec (.modeW true) s = .next (s.setPad { s.pad with mode := true })) ∧
    exec (.modeW s.pad.mode) s = .next s

/-- IF_W is a plain store (44_controller.md R249). -/
def Obligations.InterfaceWriteIsAPlainStore : Prop :=
  ∀ (v : Bool) (s : State), exec (.ifW v) s = .next (s.setPad { s.pad with interface := v })

/-- A TICK with an even count toggles L/H, sets Ack to 1, keeps the data lines and schedules the next TICK `T_STEP` later
(44_controller.md R250, R252). -/
def Obligations.EvenTickTogglesTheLine : Prop :=
  ∀ s : State, s.pad.tpend = true → s.pad.tcount.val % 2 = 0 → ∃ t, exec .tick s = .next t ∧
    outLh t.pad.out = !outLh s.pad.out ∧ outAck t.pad.out = true ∧ outData t.pad.out = outData s.pad.out ∧
    t.pad.out.extractLsb' 6 2 = 0 ∧ t.pad.tpend = true ∧ t.pad.tcount.val = s.pad.tcount.val + 1 ∧
    t.pad.tdue = config.tStep ∧ t.pad.data = s.pad.data ∧ t.pad.req = s.pad.req ∧ t.pad.mode = s.pad.mode ∧
    t.pad.interface = s.pad.interface ∧ t.pad.result = s.pad.result ∧ t.pad.calls = s.pad.calls ∧
    t.video = s.video ∧ t.cmds = s.cmds

/-- A TICK with an odd count presents nibble `count / 2` XOR the interface bit, sets Ack to 0 and keeps L/H; below 21 it
schedules the next TICK, at 21 it stops and keeps `out` (44_controller.md R251, R252). -/
def Obligations.OddTickPresentsANibble : Prop :=
  ∀ s : State, s.pad.tpend = true → s.pad.tcount.val % 2 = 1 → ∃ t, exec .tick s = .next t ∧
    outLh t.pad.out = outLh s.pad.out ∧ outAck t.pad.out = false ∧
    outData t.pad.out = bufferNibble s.pad.data (nibbleIndex s.pad.tcount s.pad.interface) ∧
    t.pad.out.extractLsb' 6 2 = 0 ∧
    (s.pad.tcount.val < 21 →
      t.pad.tpend = true ∧ t.pad.tcount.val = s.pad.tcount.val + 1 ∧ t.pad.tdue = config.tStep) ∧
    (s.pad.tcount.val = 21 → t.pad.tpend = false ∧ t.pad.tcount = s.pad.tcount) ∧
    t.pad.data = s.pad.data ∧ t.pad.req = s.pad.req ∧ t.pad.mode = s.pad.mode ∧
    t.pad.interface = s.pad.interface ∧ t.pad.result = s.pad.result ∧ t.pad.calls = s.pad.calls ∧
    t.video = s.video ∧ t.cmds = s.cmds

/-- The nibble order: with interface 0 the step index itself, with interface 1 each pair swapped and 11 last
(44_controller.md R253). -/
def Obligations.InterfaceSwapsNibblePairs : Prop :=
  ∀ k : Fin 11,
    (nibbleIndex (⟨2 * k.val + 1, by omega⟩ : Fin 22) false).val = k.val ∧
    (k.val % 2 = 0 → (nibbleIndex (⟨2 * k.val + 1, by omega⟩ : Fin 22) true).val = k.val + 1) ∧
    (k.val % 2 = 1 → (nibbleIndex (⟨2 * k.val + 1, by omega⟩ : Fin 22) true).val = k.val - 1)

/-- OUT_R returns the register in analog mode, and in digital mode the digital map of the strobe, the interface bit and one
fresh snapshot; it writes nothing but the model's result port and call counter (44_controller.md R254, R255, R256; logs 2,
13). -/
def Obligations.OutReadReturnsRegisterOrDigitalMap : Prop :=
  ∀ s : State,
    (s.pad.mode = true → exec .outR s = .next (s.setPad { s.pad with result := some s.pad.out })) ∧
    (s.pad.mode = false → exec .outR s = .next (s.setPad { s.pad with
      calls := s.pad.calls + 5
      result := some (config.digitalMap s.pad.req s.pad.interface (snapshot config s.pad.calls).btn
        (snapshot config s.pad.calls).a0 (snapshot config s.pad.calls).a1 (snapshot config s.pad.calls).a2
        (snapshot config s.pad.calls).a3) }))

/-- The whole analog read: from an edge with the output quiescent and no further command, after TICK `2k` the output
shows L/H toggled with Ack high and the last nibble, and after TICK `2k + 1` nibble `k` XOR the interface bit with Ack
low (44_controller.md R259, an inference the spec draws, without its times; that the steps are the TICKs is log 15). -/
def Obligations.AnalogReadExposesElevenNibbles : Prop :=
  ∀ s s0 : State, s.cmds = [] → s.pad.req = true → s.pad.mode = true → s.pad.out = 0x2F →
    exec (.reqW false) s = .next s0 → ∀ k : Fin 11,
      let nib (j : Nat) (h : j < 11) : Nibble :=
        bufferNibble (pack config (snapshot config s.pad.calls))
          (nibbleIndex (⟨2 * j + 1, by omega⟩ : Fin 22) s.pad.interface)
      let lh : Bool := k.val % 2 == 0
      (∃ t, core.run (2 * k.val + 1) s0 = .next t ∧ outAck t.pad.out = true ∧ outLh t.pad.out = lh ∧
        outData t.pad.out = if k.val = 0 then 0xF else nib (k.val - 1) (by omega)) ∧
      (∃ t, core.run (2 * k.val + 2) s0 = .next t ∧ outAck t.pad.out = false ∧ outLh t.pad.out = lh ∧
        outData t.pad.out = nib k.val k.isLt)

/-- An undisturbed shift stops by itself: from a pending count `c`, exactly `22 - c` steps later no TICK is pending, and at
every step before one is (44_controller.md R252, 60_exceptions.md R291; that the steps are the TICKs is log 15). -/
def Obligations.UndisturbedShiftStopsAfterCount21 : Prop :=
  ∀ s : State, s.cmds = [] → s.pad.tpend = true →
    (∃ t, core.run (22 - s.pad.tcount.val) s = .next t ∧ t.pad.tpend = false ∧ t.pad.tcount.val = 21) ∧
    (∀ k, k < 22 - s.pad.tcount.val → ∃ t, core.run k s = .next t ∧ t.pad.tpend = true ∧
      t.pad.tcount.val = s.pad.tcount.val + k)

/-! ### The invariant -/

/-- The invariant holds after reset (10_state.md R43, R31; that CSEL and OUTBUF list nothing is logs 5 and 6). -/
def Obligations.ResetMeetsTheInvariant : Prop :=
  State.reset.Inv

/-- Every step keeps the invariant: the sparse memories stay canonical and in range, palette indices stay below
`2^PAL_BITS`, only enabled levels are live, an enabled level's latch stays in its lane and its accumulator below one unit,
on Turbo no priority bit is set, `out[7:6]` stays 0, and in digital mode the engine is idle with the quiescent output
(10_state.md R31, 42_sprite_sampler.md R195, 43_compositor.md R217, 44_controller.md R240, R248, 30_encoding.md R104).  The
Turbo clause is 42_sprite_sampler.md R190 under the default table of 30_encoding.md R99 (log 8); the canonical form of the two
sparse memories and the keys of OUTBUF are the model's choices (logs 5 and 6). -/
def Obligations.StepKeepsTheInvariant : Prop :=
  ∀ s t : State, s.Inv → step s = .next t → t.Inv
end

