-- ==== Sys2Proof/Laws/Memory.lean ====
section
/-!
SUPPORT. The laws of the sparse memories: read after write, and the canonical form.
-/

namespace Sys2Proof.Machine

variable {w : Nat}

/-- Below the first address of a canonical memory nothing is listed. -/
theorem Memory.read_below (m : Memory w) (a : Nat) (h : ∀ p ∈ m, a < p.1) : Memory.read m a = 0 := by
  induction m with
  | nil => rfl
  | cons p rest ih =>
    have hp := h p (by simp)
    simp only [Memory.read]
    rw [if_neg (by omega)]
    exact ih fun q hq => h q (by simp [hq])

/-- What a write can leave in the list: the written cell, or a cell that was there. -/
theorem Memory.mem_write (m : Memory w) (a : Nat) (x : BitVec w) (p : Nat × BitVec w)
    (h : p ∈ Memory.write m a x) : (p = (a, x) ∧ x ≠ 0) ∨ p ∈ m := by
  induction m with
  | nil =>
    simp only [Memory.write] at h
    split at h <;> simp_all
  | cons q rest ih =>
    obtain ⟨k, y⟩ := q
    simp only [Memory.write] at h
    split at h
    · split at h
      · exact .inr h
      · rcases List.mem_cons.1 h with h | h
        · exact .inl ⟨h, by assumption⟩
        · exact .inr h
    · split at h
      · split at h
        · exact .inr (List.mem_cons_of_mem _ h)
        · rcases List.mem_cons.1 h with h | h
          · exact .inl ⟨h, by assumption⟩
          · exact .inr (List.mem_cons_of_mem _ h)
      · rcases List.mem_cons.1 h with h | h
        · exact .inr (by simp [h])
        · rcases ih h with h | h
          · exact .inl h
          · exact .inr (List.mem_cons_of_mem _ h)

/-- A write keeps the canonical form. -/
theorem Memory.write_wf (m : Memory w) (a : Nat) (x : BitVec w) (h : Memory.wf m) : Memory.wf (Memory.write m a x) := by
  refine ⟨?_, ?_⟩
  · obtain ⟨hs, -⟩ := h
    induction m with
    | nil => simp only [Memory.write]; split <;> simp
    | cons q rest ih =>
      obtain ⟨k, y⟩ := q
      rw [List.pairwise_cons] at hs
      simp only [Memory.write]
      split
      · rename_i hlt
        split
        · exact List.pairwise_cons.2 hs
        · refine List.pairwise_cons.2 ⟨?_, List.pairwise_cons.2 hs⟩
          intro p hp
          rcases List.mem_cons.1 hp with rfl | hp
          · exact hlt
          · exact Nat.lt_trans hlt (hs.1 p hp)
      · split
        · rename_i _ heq
          split
          · exact hs.2
          · refine List.pairwise_cons.2 ⟨?_, hs.2⟩
            intro p hp
            have := hs.1 p hp
            simp only at this ⊢
            omega
        · rename_i hlt hne
          refine List.pairwise_cons.2 ⟨?_, ih hs.2⟩
          intro p hp
          rcases Memory.mem_write rest a x p hp with ⟨rfl, -⟩ | hp
          · simp only; omega
          · exact hs.1 p hp
  · intro p hp
    rcases Memory.mem_write m a x p hp with ⟨rfl, hx⟩ | hp
    · exact hx
    · exact h.2 p hp

/-- Read after write: the written value at its address, the old one elsewhere. -/
theorem Memory.read_write (m : Memory w) (a : Nat) (x : BitVec w) (b : Nat) (h : Memory.wf m) :
    Memory.read (Memory.write m a x) b = if b = a then x else Memory.read m b := by
  obtain ⟨hs, -⟩ := h
  induction m with
  | nil =>
    simp only [Memory.write]
    split
    · rename_i hx; split <;> simp [Memory.read, hx]
    · simp only [Memory.read]
      by_cases hb : b = a
      · rw [if_pos hb.symm, if_pos hb]
      · rw [if_neg (Ne.symm hb), if_neg hb]
  | cons q rest ih =>
    obtain ⟨k, y⟩ := q
    rw [List.pairwise_cons] at hs
    have below : ∀ c, c ≤ k → Memory.read rest c = 0 := fun c hc =>
      Memory.read_below rest c fun p hp => Nat.lt_of_le_of_lt hc (hs.1 p hp)
    simp only [Memory.write]
    split
    · rename_i hlt
      split
      · rename_i hx
        by_cases hb : b = a
        · subst hb
          simp only [Memory.read, if_true, hx]
          rw [if_neg (by omega)]
          exact below b (by omega)
        · simp [hb]
      · simp only [Memory.read]
        by_cases hb : b = a
        · subst hb; simp
        · rw [if_neg (Ne.symm hb), if_neg hb]
    · split
      · rename_i _ heq
        subst heq
        split
        · rename_i hx
          by_cases hb : b = a
          · subst hb; simp only [if_true, hx]; exact below b (Nat.le_refl b)
          · simp only [Memory.read]; rw [if_neg (Ne.symm hb), if_neg hb]
        · simp only [Memory.read]
          by_cases hb : b = a
          · subst hb; simp
          · rw [if_neg (Ne.symm hb), if_neg hb, if_neg (Ne.symm hb)]
      · rename_i hlt hne
        simp only [Memory.read]
        by_cases hk : k = b
        · subst hk; rw [if_pos rfl, if_pos rfl, if_neg (by omega)]
        · rw [if_neg hk, if_neg hk]; exact ih hs.2

/-- Distinct pixels have distinct keys. -/
theorem pixelKey_inj (y y' : Byte) (x x' : U16) : pixelKey y x = pixelKey y' x' ↔ y = y' ∧ x = x' := by
  unfold pixelKey
  constructor
  · intro h
    have h1 := x.isLt
    have h2 := x'.isLt
    constructor <;> apply BitVec.eq_of_toNat_eq <;> omega
  · rintro ⟨rfl, rfl⟩; rfl

/-- Reading a pixel after a pixel write. -/
theorem pixelRead_pixelWrite (v : Video) (y : Byte) (x : U16) (p : U16) (y' : Byte) (x' : U16)
    (h : Memory.wf v.outbuf) :
    pixelRead (pixelWrite v y x p) y' x' = if y' = y ∧ x' = x then p else pixelRead v y' x' := by
  unfold pixelRead pixelWrite
  simp only [Memory.read_write _ _ _ _ h, pixelKey_inj]

/-- Reading a colour-select byte after a write. -/
theorem cselRead_cselWrite (v : Video) (i : Nat) (x : Byte) (j : Nat) (h : Memory.wf v.csel) :
    cselRead (cselWrite v i x) j = if j = i then x else cselRead v j := by
  unfold cselRead cselWrite
  simp only [Memory.read_write _ _ _ _ h]

end Sys2Proof.Machine
end

