-- ==== Sys2Proof/Laws/State.lean ====
section
/-!
SUPPORT. One lemma per field per update, and the small laws of the register file, the level arrays and the level masks.
-/

namespace Sys2Proof.Machine

@[simp] theorem State.setVideo_video (s : State) (v : Video) : (s.setVideo v).video = v := rfl
@[simp] theorem State.setVideo_pad (s : State) (v : Video) : (s.setVideo v).pad = s.pad := rfl
@[simp] theorem State.setVideo_cmds (s : State) (v : Video) : (s.setVideo v).cmds = s.cmds := rfl
@[simp] theorem State.setPad_video (s : State) (p : Pad) : (s.setPad p).video = s.video := rfl
@[simp] theorem State.setPad_pad (s : State) (p : Pad) : (s.setPad p).pad = p := rfl
@[simp] theorem State.setPad_cmds (s : State) (p : Pad) : (s.setPad p).cmds = s.cmds := rfl

@[simp] theorem sprWrite_ve (v : Video) (s k x) : (sprWrite v s k x).ve = v.ve := rfl
@[simp] theorem sprWrite_lst (v : Video) (s k x) : (sprWrite v s k x).lst = v.lst := rfl
@[simp] theorem sprWrite_levels (v : Video) (s k x) : (sprWrite v s k x).levels = v.levels := rfl
@[simp] theorem sprWrite_level (v : Video) (s k x l) : (sprWrite v s k x).level l = v.level l := rfl
@[simp] theorem sprWrite_csel (v : Video) (s k x) : (sprWrite v s k x).csel = v.csel := rfl
@[simp] theorem sprWrite_outbuf (v : Video) (s k x) : (sprWrite v s k x).outbuf = v.outbuf := rfl
@[simp] theorem sprWrite_result (v : Video) (s k x) : (sprWrite v s k x).result = v.result := rfl
@[simp] theorem sprWrite_tileCalls (v : Video) (s k x) : (sprWrite v s k x).tileCalls = v.tileCalls := rfl

@[simp] theorem setRowoff_ve (v : Video) (s x) : (setRowoff v s x).ve = v.ve := rfl
@[simp] theorem setRowoff_lst (v : Video) (s x) : (setRowoff v s x).lst = v.lst := rfl
@[simp] theorem setRowoff_levels (v : Video) (s x) : (setRowoff v s x).levels = v.levels := rfl
@[simp] theorem setRowoff_level (v : Video) (s x l) : (setRowoff v s x).level l = v.level l := rfl
@[simp] theorem setRowoff_csel (v : Video) (s x) : (setRowoff v s x).csel = v.csel := rfl
@[simp] theorem setRowoff_outbuf (v : Video) (s x) : (setRowoff v s x).outbuf = v.outbuf := rfl
@[simp] theorem setRowoff_result (v : Video) (s x) : (setRowoff v s x).result = v.result := rfl
@[simp] theorem setRowoff_tileCalls (v : Video) (s x) : (setRowoff v s x).tileCalls = v.tileCalls := rfl

@[simp] theorem setLevel_spr (v : Video) (l x) : (v.setLevel l x).spr = v.spr := rfl
@[simp] theorem setLevel_ve (v : Video) (l x) : (v.setLevel l x).ve = v.ve := rfl
@[simp] theorem setLevel_lst (v : Video) (l x) : (v.setLevel l x).lst = v.lst := rfl
@[simp] theorem setLevel_csel (v : Video) (l x) : (v.setLevel l x).csel = v.csel := rfl
@[simp] theorem setLevel_outbuf (v : Video) (l x) : (v.setLevel l x).outbuf = v.outbuf := rfl
@[simp] theorem setLevel_result (v : Video) (l x) : (v.setLevel l x).result = v.result := rfl
@[simp] theorem setLevel_tileCalls (v : Video) (l x) : (v.setLevel l x).tileCalls = v.tileCalls := rfl

@[simp] theorem cselWrite_spr (v : Video) (i x) : (cselWrite v i x).spr = v.spr := rfl
@[simp] theorem cselWrite_ve (v : Video) (i x) : (cselWrite v i x).ve = v.ve := rfl
@[simp] theorem cselWrite_lst (v : Video) (i x) : (cselWrite v i x).lst = v.lst := rfl
@[simp] theorem cselWrite_levels (v : Video) (i x) : (cselWrite v i x).levels = v.levels := rfl
@[simp] theorem cselWrite_level (v : Video) (i x l) : (cselWrite v i x).level l = v.level l := rfl
@[simp] theorem cselWrite_csel (v : Video) (i x) : (cselWrite v i x).csel = Memory.write v.csel i x := rfl
@[simp] theorem cselWrite_outbuf (v : Video) (i x) : (cselWrite v i x).outbuf = v.outbuf := rfl
@[simp] theorem cselWrite_result (v : Video) (i x) : (cselWrite v i x).result = v.result := rfl
@[simp] theorem cselWrite_tileCalls (v : Video) (i x) : (cselWrite v i x).tileCalls = v.tileCalls := rfl

@[simp] theorem pixelWrite_spr (v : Video) (y x p) : (pixelWrite v y x p).spr = v.spr := rfl
@[simp] theorem pixelWrite_ve (v : Video) (y x p) : (pixelWrite v y x p).ve = v.ve := rfl
@[simp] theorem pixelWrite_lst (v : Video) (y x p) : (pixelWrite v y x p).lst = v.lst := rfl
@[simp] theorem pixelWrite_levels (v : Video) (y x p) : (pixelWrite v y x p).levels = v.levels := rfl
@[simp] theorem pixelWrite_level (v : Video) (y x p l) : (pixelWrite v y x p).level l = v.level l := rfl
@[simp] theorem pixelWrite_csel (v : Video) (y x p) : (pixelWrite v y x p).csel = v.csel := rfl
@[simp] theorem pixelWrite_outbuf (v : Video) (y x p) :
    (pixelWrite v y x p).outbuf = Memory.write v.outbuf (pixelKey y x) p := rfl
@[simp] theorem pixelWrite_result (v : Video) (y x p) : (pixelWrite v y x p).result = v.result := rfl
@[simp] theorem pixelWrite_tileCalls (v : Video) (y x p) : (pixelWrite v y x p).tileCalls = v.tileCalls := rfl

@[simp] theorem hstartVideo_spr (m v) : (hstartVideo m v).spr = v.spr := rfl
@[simp] theorem hstartVideo_ve (m v) : (hstartVideo m v).ve = v.ve := rfl
@[simp] theorem hstartVideo_lst (m v) : (hstartVideo m v).lst = v.lst ||| (v.ve &&& m) := rfl
@[simp] theorem hstartVideo_levels (m v) : (hstartVideo m v).levels = v.levels := rfl
@[simp] theorem hstartVideo_level (m v l) : (hstartVideo m v).level l = v.level l := rfl
@[simp] theorem hstartVideo_csel (m v) : (hstartVideo m v).csel = v.csel := rfl
@[simp] theorem hstartVideo_outbuf (m v) : (hstartVideo m v).outbuf = v.outbuf := rfl
@[simp] theorem hstartVideo_result (m v) : (hstartVideo m v).result = v.result := rfl
@[simp] theorem hstartVideo_tileCalls (m v) : (hstartVideo m v).tileCalls = v.tileCalls := rfl

@[simp] theorem schedule_tpend (p d c) : (schedule p d c).tpend = true := rfl
@[simp] theorem schedule_tcount (p d c) : (schedule p d c).tcount = c := rfl
@[simp] theorem schedule_tdue (p d c) : (schedule p d c).tdue = d := rfl
@[simp] theorem schedule_req (p d c) : (schedule p d c).req = p.req := rfl
@[simp] theorem schedule_mode (p d c) : (schedule p d c).mode = p.mode := rfl
@[simp] theorem schedule_interface (p d c) : (schedule p d c).interface = p.interface := rfl
@[simp] theorem schedule_data (p d c) : (schedule p d c).data = p.data := rfl
@[simp] theorem schedule_out (p d c) : (schedule p d c).out = p.out := rfl
@[simp] theorem schedule_result (p d c) : (schedule p d c).result = p.result := rfl
@[simp] theorem schedule_calls (p d c) : (schedule p d c).calls = p.calls := rfl

@[simp] theorem cancel_tpend (p) : (cancel p).tpend = false := rfl
@[simp] theorem cancel_tcount (p) : (cancel p).tcount = p.tcount := rfl
@[simp] theorem cancel_tdue (p) : (cancel p).tdue = p.tdue := rfl
@[simp] theorem cancel_req (p) : (cancel p).req = p.req := rfl
@[simp] theorem cancel_mode (p) : (cancel p).mode = p.mode := rfl
@[simp] theorem cancel_interface (p) : (cancel p).interface = p.interface := rfl
@[simp] theorem cancel_data (p) : (cancel p).data = p.data := rfl
@[simp] theorem cancel_out (p) : (cancel p).out = p.out := rfl
@[simp] theorem cancel_result (p) : (cancel p).result = p.result := rfl
@[simp] theorem cancel_calls (p) : (cancel p).calls = p.calls := rfl

@[simp] theorem expire_tpend (p) : (expire p).tpend = p.tpend := rfl
@[simp] theorem expire_tcount (p) : (expire p).tcount = p.tcount := rfl
@[simp] theorem expire_tdue (p) : (expire p).tdue = 0 := rfl
@[simp] theorem expire_req (p) : (expire p).req = p.req := rfl
@[simp] theorem expire_mode (p) : (expire p).mode = p.mode := rfl
@[simp] theorem expire_interface (p) : (expire p).interface = p.interface := rfl
@[simp] theorem expire_data (p) : (expire p).data = p.data := rfl
@[simp] theorem expire_out (p) : (expire p).out = p.out := rfl
@[simp] theorem expire_result (p) : (expire p).result = p.result := rfl
@[simp] theorem expire_calls (p) : (expire p).calls = p.calls := rfl

/-- Reading a slot byte after a byte write: the value at the written place, the old byte elsewhere. -/
theorem sprRead_sprWrite (v : Video) (s : Fin 16) (k : Fin 8) (x : Byte) (s' : Fin 16) (k' : Fin 8) :
    sprRead (sprWrite v s k x) s' k' = if s' = s ∧ k' = k then x else sprRead v s' k' := by
  unfold sprRead sprWrite
  by_cases hs : s' = s
  · subst hs
    by_cases hk : k' = k
    · subst hk; simp
    · have : ¬ k.val = k'.val := fun h => hk (Fin.ext h.symm)
      simp [hk, this]
  · have : ¬ s.val = s'.val := fun h => hs (Fin.ext h.symm)
    simp [hs, this]

/-- A slot's bytes depend on the register file alone. -/
theorem sprRead_congr {v w : Video} (h : v.spr = w.spr) (s k) : sprRead v s k = sprRead w s k := by
  unfold sprRead; rw [h]

/-- Reading level entries after a level write. -/
theorem level_setLevel (v : Video) (l : Fin 8) (x : Level) (l' : Fin 8) :
    (v.setLevel l x).level l' = if l' = l then x else v.level l' := by
  unfold Video.level Video.setLevel
  by_cases h : l' = l
  · subst h; simp
  · have : ¬ l.val = l'.val := fun e => h (Fin.ext e.symm)
    simp [h, this]

/-- A 16-bit word is its two halves, high byte first. -/
theorem halves_append (x : U16) : x.extractLsb' 8 8 ++ x.extractLsb' 0 8 = x := by
  apply BitVec.eq_of_getLsbD_eq
  intro i hi
  rw [BitVec.getLsbD_append, BitVec.getLsbD_extractLsb', BitVec.getLsbD_extractLsb']
  by_cases h8 : i < 8
  · simp [h8]
  · have h1 : i - 8 < 8 := by omega
    have h2 : 8 + (i - 8) = i := by omega
    simp [h8, h1, h2]

/-- A row-offset write is seen by `rowoff` of the same slot only. -/
theorem rowoff_setRowoff (v : Video) (s : Fin 16) (x : U16) (s' : Fin 16) :
    rowoff (setRowoff v s x) s' = if s' = s then x else rowoff v s' := by
  unfold rowoff setRowoff
  by_cases h : s' = s
  · subst h
    simpa [sprRead_sprWrite] using halves_append x
  · simp [sprRead_sprWrite, h]

/-- A row-offset write leaves every byte but 6 and 7 of its slot alone. -/
theorem sprRead_setRowoff (v : Video) (s : Fin 16) (x : U16) (s' : Fin 16) (k' : Fin 8)
    (h : s' ≠ s ∨ (k' ≠ 6 ∧ k' ≠ 7)) : sprRead (setRowoff v s x) s' k' = sprRead v s' k' := by
  unfold setRowoff
  rw [sprRead_sprWrite, sprRead_sprWrite]
  rcases h with h | ⟨h6, h7⟩
  · simp [h]
  · simp [h6, h7]

theorem levelBit_zero (l : Fin 8) : levelBit 0#8 l = false := by simp [levelBit]

theorem levelBit_or (m n : Byte) (l : Fin 8) : levelBit (m ||| n) l = (levelBit m l || levelBit n l) := by
  simp [levelBit]

theorem levelBit_and (m n : Byte) (l : Fin 8) : levelBit (m &&& n) l = (levelBit m l && levelBit n l) := by
  simp [levelBit]

theorem levelBit_setLevelBit (m : Byte) (l l' : Fin 8) :
    levelBit (setLevelBit m l) l' = (decide (l' = l) || levelBit m l') := by
  have h : ∀ l l' : Fin 8, levelBit (1#8 <<< l.val) l' = decide (l' = l) := by decide
  unfold setLevelBit
  rw [levelBit_or, h, Bool.or_comm]

theorem levelBit_clearLevelBit (m : Byte) (l l' : Fin 8) :
    levelBit (clearLevelBit m l) l' = (!decide (l' = l) && levelBit m l') := by
  have h : ∀ l l' : Fin 8, levelBit (~~~(1#8 <<< l.val)) l' = !decide (l' = l) := by decide
  unfold clearLevelBit
  rw [levelBit_and, h, Bool.and_comm]

theorem levelBit_bitAtLevel (b : Bool) (l l' : Fin 8) : levelBit (bitAtLevel b l) l' = (b && decide (l' = l)) := by
  revert b l l'; decide

/-- A level mask is its eight bits. -/
theorem mask_ext {m n : Byte} (h : ∀ l, levelBit m l = levelBit n l) : m = n := by
  apply BitVec.eq_of_getLsbD_eq
  intro i hi
  exact h ⟨i, hi⟩

/-- `lst & ~ve = 0` level by level (10_state.md R31). -/
theorem live_subset_iff (lst ve : Byte) :
    lst &&& ~~~ve = 0 ↔ ∀ l, levelBit lst l = true → levelBit ve l = true := by
  constructor
  · intro h l hl
    have := congrArg (fun m => levelBit m l) h
    simp only [levelBit_and] at this
    simp [levelBit] at this hl ⊢
    simpa [hl] using this
  · intro h
    apply mask_ext
    intro l
    have := h l
    simp [levelBit] at this ⊢
    exact this

end Sys2Proof.Machine
end

