-- ==== Sys2Proof/Laws/Sampler.lean ====
section
/-!
SUPPORT. What SAMPLE leaves (spec/42_sprite_sampler.md R180 to R195): the fetch loop as a number of fetches, one level's
turn, and the whole level loop said once.
-/

namespace Sys2Proof.Machine

/-- Every unit is between 2^23 and 2^24. -/
theorem unit_bounds (b : Board) : 8388608 ≤ (unit b).toNat ∧ (unit b).toNat ≤ 16777216 := by cases b <;> decide

@[simp] theorem fetch_frac (c l p) : (fetch c l p).1.frac = p.1.frac - unit c.board := rfl
@[simp] theorem fetch_step (c l p) : (fetch c l p).1.step = p.1.step := rfl
@[simp] theorem fetch_offset (c l p) : (fetch c l p).1.offset = nextOffset p.1.offset := rfl

/-- The loop makes one fetch per whole unit the accumulator holds (R184, R191), if its turns suffice. -/
theorem fetchLoop_eq_iterate (c : Config) (l : Fin 8) (n : Nat) (p : Level × Bool)
    (h : p.1.frac.toNat < (n + 1) * (unit c.board).toNat) :
    fetchLoop c l n p = (fetch c l)^[p.1.frac.toNat / (unit c.board).toNat] p := by
  have hu := (unit_bounds c.board).1
  induction n generalizing p with
  | zero =>
    have : p.1.frac.toNat / (unit c.board).toNat = 0 := Nat.div_eq_of_lt (by omega)
    rw [this]; rfl
  | succ n ih =>
    unfold fetchLoop
    split
    · rename_i hle
      have hle' : (unit c.board).toNat ≤ p.1.frac.toNat := hle
      have hsub : (fetch c l p).1.frac.toNat = p.1.frac.toNat - (unit c.board).toNat := by
        rw [fetch_frac, BitVec.toNat_sub_of_le hle]
      have hdiv : p.1.frac.toNat / (unit c.board).toNat =
          (fetch c l p).1.frac.toNat / (unit c.board).toNat + 1 := by
        rw [hsub, Nat.div_eq_sub_div (by omega) hle']
      rw [hdiv, Function.iterate_succ_apply]
      apply ih
      rw [hsub]
      have : (n + 1 + 1) * (unit c.board).toNat = (n + 1) * (unit c.board).toNat + (unit c.board).toNat := by ring
      omega
    · rename_i hle
      have hlt : p.1.frac.toNat < (unit c.board).toNat := by
        have : ¬ (unit c.board).toNat ≤ p.1.frac.toNat := hle
        omega
      rw [Nat.div_eq_of_lt hlt]; rfl

/-- `maxFetches` turns always suffice. -/
theorem maxFetches_suffice (b : Board) (f : U32) : f.toNat < (maxFetches + 1) * (unit b).toNat := by
  have h1 := f.isLt
  have h2 := (unit_bounds b).1
  have h3 : (maxFetches + 1) * 8388608 ≤ (maxFetches + 1) * (unit b).toNat := Nat.mul_le_mul_left _ h2
  have h4 : (maxFetches + 1) * 8388608 = 4303355904 := by decide
  omega

/-- A live level's turn is one fetch per whole unit of the new accumulator. -/
theorem sampleLevel_eq (c : Config) (l : Fin 8) (x : Level) :
    sampleLevel c l x =
      (fetch c l)^[(x.frac + x.step).toNat / (unit c.board).toNat] ({ x with frac := x.frac + x.step }, true) :=
  fetchLoop_eq_iterate c l maxFetches _ (maxFetches_suffice c.board _)

/-- The accumulator after `k` fetches. -/
theorem iterate_fetch_frac (c : Config) (l : Fin 8) (k : Nat) (p : Level × Bool)
    (h : k * (unit c.board).toNat ≤ p.1.frac.toNat) :
    ((fetch c l)^[k] p).1.frac.toNat = p.1.frac.toNat - k * (unit c.board).toNat := by
  induction k generalizing p with
  | zero => simp
  | succ k ih =>
    have hs : (k + 1) * (unit c.board).toNat = k * (unit c.board).toNat + (unit c.board).toNat := by ring
    have hle : (unit c.board).toNat ≤ p.1.frac.toNat := by omega
    have hsub : (fetch c l p).1.frac.toNat = p.1.frac.toNat - (unit c.board).toNat := by
      rw [fetch_frac]; exact BitVec.toNat_sub_of_le hle
    rw [Function.iterate_succ_apply, ih _ (by omega), hsub]
    omega

/-- After a level's turn the accumulator is the remainder of the new sum (R184). -/
theorem sampleLevel_frac (c : Config) (l : Fin 8) (x : Level) :
    (sampleLevel c l x).1.frac.toNat = (x.frac + x.step).toNat % (unit c.board).toNat := by
  rw [sampleLevel_eq, iterate_fetch_frac]
  · have := Nat.div_add_mod (x.frac + x.step).toNat (unit c.board).toNat
    rw [Nat.mul_comm] at this
    simp only
    omega
  · exact Nat.div_mul_le_self _ _

/-- The loop leaves the accumulator below one unit (R184): its cut-off is never what ends it. -/
theorem fetchLoop_done (c : Config) (l : Fin 8) (x : Level) : (sampleLevel c l x).1.frac < unit c.board := by
  have h : (sampleLevel c l x).1.frac.toNat < (unit c.board).toNat := by
    rw [sampleLevel_frac]
    have := (unit_bounds c.board).1
    exact Nat.mod_lt _ (by omega)
  exact h

theorem iterate_fetch_step (c : Config) (l : Fin 8) (k : Nat) (p : Level × Bool) :
    ((fetch c l)^[k] p).1.step = p.1.step := by
  induction k generalizing p with
  | zero => rfl
  | succ k ih => rw [Function.iterate_succ_apply, ih, fetch_step]

/-- The step of a level is not written by SAMPLE (R180). -/
theorem sampleLevel_step (c : Config) (l : Fin 8) (x : Level) : (sampleLevel c l x).1.step = x.step := by
  rw [sampleLevel_eq, iterate_fetch_step]

/-- What every fetch establishes and nothing else in a level's turn disturbs. -/
theorem sampleLevel_keeps (c : Config) (l : Fin 8) (P : U32 → Bool → Prop)
    (hf : ∀ nib, P (latchWord nib l) (endEntry c nib).plb) (x : Level) (hx : P x.latched x.plb) :
    P (sampleLevel c l x).1.latched (sampleLevel c l x).1.plb := by
  rw [sampleLevel_eq]
  have key : ∀ (k : Nat) (p : Level × Bool), P p.1.latched p.1.plb →
      P ((fetch c l)^[k] p).1.latched ((fetch c l)^[k] p).1.plb := by
    intro k
    induction k with
    | zero => intro p hp; exact hp
    | succ k ih =>
      intro p hp
      rw [Function.iterate_succ_apply]
      exact ih _ (hf _)
  exact key _ _ hx

/-- One level's turn of SAMPLE (R182, R183, R188, R190). -/
theorem sampleStep_spec (c : Config) (acc : Video × SampleOut) (l : Fin 8) :
    (∀ l', (sampleStep c acc l).1.level l' =
      if levelBit acc.1.lst l = true ∧ l' = l then (sampleLevel c l (acc.1.level l)).1 else acc.1.level l') ∧
    (∀ l', levelBit (sampleStep c acc l).1.lst l' =
      (levelBit acc.1.lst l' && (!decide (l' = l) || (sampleLevel c l (acc.1.level l)).2))) ∧
    (∀ i, (sampleStep c acc l).2.sprbits.getLsbD i =
      (acc.2.sprbits.getLsbD i || (levelBit acc.1.lst l && (acc.1.level l).latched.getLsbD i))) ∧
    (∀ l', levelBit (sampleStep c acc l).2.plbmask l' =
      (levelBit acc.2.plbmask l' || (levelBit acc.1.lst l && (acc.1.level l).plb && decide (l' = l)))) ∧
    (sampleStep c acc l).1.spr = acc.1.spr ∧ (sampleStep c acc l).1.ve = acc.1.ve ∧
    (sampleStep c acc l).1.csel = acc.1.csel ∧ (sampleStep c acc l).1.outbuf = acc.1.outbuf ∧
    (sampleStep c acc l).1.result = acc.1.result ∧ (sampleStep c acc l).1.tileCalls = acc.1.tileCalls := by
  unfold sampleStep
  by_cases hl : levelBit acc.1.lst l = true
  · simp only [hl, if_true, true_and, Bool.true_and]
    refine ⟨?_, ?_, ?_, ?_, rfl, rfl, rfl, rfl, rfl, rfl⟩
    · intro l'
      exact level_setLevel acc.1 l _ l'
    · intro l'
      show levelBit (if _ then _ else _) l' = _
      by_cases hr : (sampleLevel c l (acc.1.level l)).2 = true
      · simp [hr]
      · simp only [hr]
        rw [if_neg (by simp), levelBit_clearLevelBit, Bool.or_false, Bool.and_comm]
    · intro i
      exact BitVec.getLsbD_or
    · intro l'
      show levelBit (acc.2.plbmask ||| bitAtLevel (acc.1.level l).plb l) l' = _
      rw [levelBit_or, levelBit_bitAtLevel]
  · have hl' : levelBit acc.1.lst l = false := by simpa using hl
    simp only [hl', Bool.false_eq_true, if_false, false_and, Bool.false_and, Bool.or_false, implies_true, and_self,
      and_true, true_and]
    intro l'
    by_cases h : l' = l
    · subst h; simp [hl']
    · simp [h]

/-- The level loop over any list of distinct levels, said without the loop (R181): every level is judged by its state
at the start. -/
theorem sampleLoop_spec (c : Config) (v : Video) (o : SampleOut) (ls : List (Fin 8)) (hn : ls.Nodup) :
    (∀ l, (ls.foldl (sampleStep c) (v, o)).1.level l =
      if levelBit v.lst l = true ∧ l ∈ ls then (sampleLevel c l (v.level l)).1 else v.level l) ∧
    (∀ l, levelBit (ls.foldl (sampleStep c) (v, o)).1.lst l =
      (levelBit v.lst l && (!decide (l ∈ ls) || (sampleLevel c l (v.level l)).2))) ∧
    (∀ i, (ls.foldl (sampleStep c) (v, o)).2.sprbits.getLsbD i =
      (o.sprbits.getLsbD i || ls.any fun l => levelBit v.lst l && (v.level l).latched.getLsbD i)) ∧
    (∀ l, levelBit (ls.foldl (sampleStep c) (v, o)).2.plbmask l =
      (levelBit o.plbmask l || (levelBit v.lst l && (v.level l).plb && decide (l ∈ ls)))) ∧
    (ls.foldl (sampleStep c) (v, o)).1.spr = v.spr ∧ (ls.foldl (sampleStep c) (v, o)).1.ve = v.ve ∧
    (ls.foldl (sampleStep c) (v, o)).1.csel = v.csel ∧ (ls.foldl (sampleStep c) (v, o)).1.outbuf = v.outbuf ∧
    (ls.foldl (sampleStep c) (v, o)).1.result = v.result ∧
    (ls.foldl (sampleStep c) (v, o)).1.tileCalls = v.tileCalls := by
  induction ls using List.reverseRecOn with
  | nil => simp
  | append_singleton ls l ih =>
    have hnl : l ∉ ls := fun h => (List.nodup_append.1 hn).2.2 l h l (by simp) rfl
    obtain ⟨i1, i2, i3, i4, i5, i6, i7, i8, i9, i10⟩ := ih (List.nodup_append.1 hn).1
    rw [List.foldl_append]
    simp only [List.foldl_cons, List.foldl_nil]
    generalize hr : ls.foldl (sampleStep c) (v, o) = r at *
    have hlev : r.1.level l = v.level l := by rw [i1, if_neg (fun h => hnl h.2)]
    have hlive : levelBit r.1.lst l = levelBit v.lst l := by rw [i2]; simp [hnl]
    obtain ⟨p1, p2, p3, p4, p5, p6, p7, p8, p9, p10⟩ := sampleStep_spec c r l
    refine ⟨?_, ?_, ?_, ?_, by rw [p5, i5], by rw [p6, i6], by rw [p7, i7], by rw [p8, i8], by rw [p9, i9],
      by rw [p10, i10]⟩
    · intro l'
      rw [p1, hlive, hlev]
      by_cases h : l' = l
      · subst h; simp [i1, hnl]
      · simp [h, i1]
    · intro l'
      rw [p2, hlev, i2]
      by_cases h : l' = l
      · subst h; simp [hnl]
      · simp [h]
    · intro i
      rw [p3, i3, hlive, hlev]
      simp [List.any_append, Bool.or_assoc]
    · intro l'
      rw [p4, i4, hlive, hlev]
      by_cases h : l' = l
      · subst h; simp [hnl]
      · simp [h]

theorem levelList_nodup : levelList.Nodup := by decide

theorem mem_levelList (l : Fin 8) : l ∈ levelList := by revert l; decide

/-- SAMPLE said once (R180 to R190). -/
theorem sample_spec (c : Config) (v : Video) :
    (∀ l, (sample c v).1.level l = if levelBit v.lst l then (sampleLevel c l (v.level l)).1 else v.level l) ∧
    (∀ l, levelBit (sample c v).1.lst l = (levelBit v.lst l && (sampleLevel c l (v.level l)).2)) ∧
    (∀ i, (sample c v).2.sprbits.getLsbD i =
      levelList.any fun l => levelBit v.lst l && (v.level l).latched.getLsbD i) ∧
    (∀ l, levelBit (sample c v).2.plbmask l = (levelBit v.lst l && (v.level l).plb)) ∧
    (sample c v).1.spr = v.spr ∧ (sample c v).1.ve = v.ve ∧ (sample c v).1.csel = v.csel ∧
    (sample c v).1.outbuf = v.outbuf ∧ (sample c v).1.result = v.result ∧
    (sample c v).1.tileCalls = v.tileCalls := by
  obtain ⟨h1, h2, h3, h4, h5⟩ := sampleLoop_spec c v { sprbits := 0x00000000, plbmask := 0x00 } levelList levelList_nodup
  unfold sample
  refine ⟨?_, ?_, ?_, ?_, h5⟩
  · intro l; rw [h1]; simp [mem_levelList]
  · intro l; rw [h2]; simp [mem_levelList]
  · intro i; rw [h3]; simp
  · intro l
    rw [h4, show levelBit (0x00 : Byte) l = false from levelBit_zero l]
    simp [mem_levelList]

/-- Bit `8p + l` of an expanded and shifted nibble is bit `p` of the nibble, and every other bit is 0 (R186). -/
theorem latchWord_bit (nib : Nibble) (l : Fin 8) (i : Fin 32) :
    (latchWord nib l).getLsbD i.val = (decide (i.val % 8 = l.val) && nib.getLsbD (i.val / 8)) := by
  have h : ∀ (l : Fin 8) (nib : Nibble), ∀ i : Fin 32,
      (latchWord nib l).getLsbD i.val = (decide (i.val % 8 = l.val) && nib.getLsbD (i.val / 8)) := by
    decide +kernel
  exact h l nib i

/-- A latched word stays in its lane (30_encoding.md R96). -/
theorem latchWord_inLane (nib : Nibble) (l : Fin 8) : latchWord nib l &&& ~~~laneMask l = 0 := by
  revert nib l; decide

/-- Lane `l` of a latched word is the nibble (R186). -/
theorem lane_latchWord (nib : Nibble) (l : Fin 8) : lane (latchWord nib l) l = nib := by
  revert nib l; decide

/-- A word in its lane has its set bits at `8p + l` only. -/
theorem inLane_bit {w : U32} {l : Fin 8} (h : w &&& ~~~laneMask l = 0) (i : Nat) (hi : i % 8 ≠ l.val) :
    w.getLsbD i = false := by
  by_cases h32 : i < 32
  · have hb := congrArg (fun x => x.getLsbD i) h
    have key : ∀ (l : Fin 8) (i : Fin 32), i.val % 8 ≠ l.val → (laneMask l).getLsbD i.val = false := by
      decide +kernel
    have := key l ⟨i, h32⟩ hi
    simp only [BitVec.getLsbD_and, BitVec.getLsbD_not, h32, decide_true, Bool.true_and] at hb
    simp only at this
    rw [this] at hb
    simpa using hb
  · exact BitVec.getLsbD_of_ge w i (by omega)

end Sys2Proof.Machine
end

