-- ==== Sys2Proof/Laws/SpritePrep.lean ====
section
/-!
SUPPORT. What PREP leaves (spec/41_sprite_prep.md R151 to R161): the enable ALU as a window, one slot's turn, and the
whole loop said once without the loop.
-/

namespace Sys2Proof.Machine

theorem toNat_compl (x : Byte) : (~~~x).toNat = 255 - x.toNat := by simp [BitVec.toNat_not]

/-- `clo = 1` exactly when `row0 < y` (R155). -/
theorem aluClo_iff (y row0 : Byte) : aluClo y row0 = true ↔ row0.toNat < y.toNat := by
  have h1 := y.isLt
  have h2 := row0.isLt
  unfold aluClo aluFirst
  rw [toNat_compl, Nat.testBit_eq_decide_div_mod_eq, decide_eq_true_iff]
  omega

/-- The running sum fits 17 bits, so bit 16 is a comparison (R153). -/
theorem bit16_iff (n : Nat) (h : n < 131072) : n.testBit 16 = true ↔ 65536 ≤ n := by
  rw [Nat.testBit_eq_decide_div_mod_eq, decide_eq_true_iff]
  simp only [Nat.reducePow]
  omega

/-- The enable condition is the window `row0 < y < row1` (R155). -/
theorem aluEnabled_iff (y row0 row1 : Byte) :
    aluEnabled y row0 row1 = true ↔ row0.toNat < y.toNat ∧ y.toNat < row1.toNat := by
  have h1 := y.isLt
  have h2 := row0.isLt
  have h3 := row1.isLt
  unfold aluEnabled
  rw [Bool.and_eq_true, aluClo_iff, Bool.not_eq_true', Bool.eq_false_iff]
  unfold aluChi aluSum aluFirst
  rw [toNat_compl, toNat_compl, Ne, bit16_iff _ (by omega)]
  omega

/-- `AL = y - row0 - 1` mod 256 (R154). -/
theorem aluLow_eq (y row0 row1 : Byte) : aluLow y row0 row1 = y - row0 - 1 := by
  have h1 := y.isLt
  have h2 := row0.isLt
  apply BitVec.eq_of_toNat_eq
  unfold aluLow aluSum aluFirst
  rw [toNat_compl, toNat_compl, BitVec.toNat_ofNat, BitVec.toNat_sub, BitVec.toNat_sub]
  simp
  omega

theorem slotEnabled_iff (v : Video) (s : Fin 16) (y : Byte) : slotEnabled v s y = true ↔ inWindow v s y :=
  aluEnabled_iff _ _ _

/-- Bytes 0 to 5 of a slot, and every byte of another slot, survive a row advance. -/
theorem sprRead_advanceRow (c : Config) (y : Byte) (v : Video) (s s' : Fin 16) (k : Fin 8)
    (h : s' ≠ s ∨ (k ≠ 6 ∧ k ≠ 7)) : sprRead (advanceRow c y v s) s' k = sprRead v s' k := by
  unfold advanceRow
  split
  · exact sprRead_setRowoff v s _ s' k h
  · rfl

@[simp] theorem advanceRow_ve (c y v s) : (advanceRow c y v s).ve = v.ve := by unfold advanceRow; split <;> rfl
@[simp] theorem advanceRow_lst (c y v s) : (advanceRow c y v s).lst = v.lst := by unfold advanceRow; split <;> rfl
@[simp] theorem advanceRow_level (c y v s l) : (advanceRow c y v s).level l = v.level l := by
  unfold advanceRow; split <;> rfl
@[simp] theorem advanceRow_csel (c y v s) : (advanceRow c y v s).csel = v.csel := by unfold advanceRow; split <;> rfl
@[simp] theorem advanceRow_outbuf (c y v s) : (advanceRow c y v s).outbuf = v.outbuf := by
  unfold advanceRow; split <;> rfl
@[simp] theorem advanceRow_result (c y v s) : (advanceRow c y v s).result = v.result := by
  unfold advanceRow; split <;> rfl
@[simp] theorem advanceRow_tileCalls (c y v s) : (advanceRow c y v s).tileCalls = v.tileCalls := by
  unfold advanceRow; split <;> rfl

/-- A row offset after its slot's own advance (R158). -/
theorem rowoff_advanceRow (c : Config) (y : Byte) (v : Video) (s : Fin 16) :
    rowoff (advanceRow c y v s) s = if rowAdvances c v s y then rowoff v s + rowinc v s else rowoff v s := by
  unfold advanceRow
  split
  · rw [rowoff_setRowoff, if_pos rfl]
  · rfl

/-- The registers of slot `s` after PREP has processed it. -/
def slotAfter (c : Config) (y : Byte) (v : Video) (s : Fin 16) : Video :=
  if slotEnabled v s y then advanceRow c y v s else v

/-- What PREP computes for a slot depends on that slot's eight bytes alone. -/
theorem slot_congr (c : Config) (y : Byte) {v w : Video} {s : Fin 16} (h : ∀ k, sprRead v s k = sprRead w s k) :
    slotEnabled v s y = slotEnabled w s y ∧
    freshLevel c (advanceRow c y v s) s = freshLevel c (advanceRow c y w s) s ∧
    ∀ k, sprRead (slotAfter c y v s) s k = sprRead (slotAfter c y w s) s k := by
  have he : slotEnabled v s y = slotEnabled w s y := by unfold slotEnabled; rw [h, h]
  have hr : rowAdvances c v s y = rowAdvances c w s y := by unfold rowAdvances; rw [h, h, h]
  have ho : rowoff v s = rowoff w s := by unfold rowoff; rw [h, h]
  have hi : rowinc v s = rowinc w s := by unfold rowinc; rw [h, h]
  have hx : ∀ k, sprRead (advanceRow c y v s) s k = sprRead (advanceRow c y w s) s k := by
    intro k
    unfold advanceRow
    rw [hr]
    split
    · unfold setRowoff
      rw [sprRead_sprWrite, sprRead_sprWrite, sprRead_sprWrite, sprRead_sprWrite, ho, hi, h]
    · exact h k
  refine ⟨he, ?_, ?_⟩
  · unfold freshLevel
    rw [rowoff_advanceRow, rowoff_advanceRow, hr, ho, hi, hx]
  · intro k
    unfold slotAfter
    rw [he]
    split
    · exact hx k
    · exact h k

theorem resetLevel_sprRead (c v s s' k) : sprRead (resetLevel c v s) s' k = sprRead v s' k := rfl

theorem resetLevel_level (c : Config) (v : Video) (s : Fin 16) (l : Fin 8) :
    (resetLevel c v s).level l = if l = levelOf s then freshLevel c v s else v.level l :=
  level_setLevel v (levelOf s) (freshLevel c v s) l

/-- One slot's turn (R151): its registers, its level, the masks, and nothing else. -/
theorem prepSlot_spec (c : Config) (y : Byte) (v : Video) (s : Fin 16) :
    (∀ s' k, sprRead (prepSlot c y v s) s' k = if s' = s then sprRead (slotAfter c y v s) s k else sprRead v s' k) ∧
    (∀ l, (prepSlot c y v s).level l =
      if slotEnabled v s y ∧ levelOf s = l then freshLevel c (advanceRow c y v s) s else v.level l) ∧
    (∀ l, levelBit (prepSlot c y v s).ve l = ((slotEnabled v s y && (levelOf s == l)) || levelBit v.ve l)) ∧
    (∀ l, levelBit (prepSlot c y v s).lst l =
      ((c.liveOnEnable && (slotEnabled v s y && (levelOf s == l))) || levelBit v.lst l)) ∧
    (prepSlot c y v s).csel = v.csel ∧ (prepSlot c y v s).outbuf = v.outbuf ∧
    (prepSlot c y v s).result = v.result ∧ (prepSlot c y v s).tileCalls = v.tileCalls := by
  unfold prepSlot slotAfter
  by_cases he : slotEnabled v s y = true
  · simp only [he, if_true, true_and]
    refine ⟨?_, ?_, ?_, ?_, ?_, ?_, ?_, ?_⟩
    · intro s' k
      rw [resetLevel_sprRead]
      split
      · rename_i h; rw [h]
      · rename_i h; exact sprRead_advanceRow c y v s s' k (.inl h)
    · intro l
      rw [resetLevel_level, advanceRow_level]
      by_cases h : l = levelOf s
      · rw [if_pos h, if_pos h.symm]
      · rw [if_neg h, if_neg (Ne.symm h)]
    · intro l
      show levelBit (setLevelBit (advanceRow c y v s).ve (levelOf s)) l = _
      rw [levelBit_setLevelBit, advanceRow_ve]
      simp only [Bool.true_and, eq_comm (a := l)]
      rfl
    · intro l
      show levelBit (if c.liveOnEnable then setLevelBit (advanceRow c y v s).lst (levelOf s)
        else (advanceRow c y v s).lst) l = _
      cases c.liveOnEnable
      · simp
      · simp only [if_true, levelBit_setLevelBit, advanceRow_lst, Bool.true_and, eq_comm (a := l)]
        rfl
    · exact advanceRow_csel c y v s
    · exact advanceRow_outbuf c y v s
    · exact advanceRow_result c y v s
    · exact advanceRow_tileCalls c y v s
  · have he' : slotEnabled v s y = false := by simpa using he
    simp only [he', Bool.false_eq_true, if_false, false_and, Bool.false_and, Bool.and_false, Bool.false_or,
      implies_true, and_self, and_true]
    intro s' k
    split
    · rename_i h; rw [h]
    · rfl

/-- PREP's loop over any list of distinct slots, said without the loop: every slot is judged by its registers as
they were at the start, and the last enabled slot of a level wins (R152, R158, R161). -/
theorem prepLoop_spec (c : Config) (y : Byte) (v : Video) (ls : List (Fin 16)) (hn : ls.Nodup) :
    (∀ s k, sprRead (ls.foldl (prepSlot c y) v) s k =
      if s ∈ ls then sprRead (slotAfter c y v s) s k else sprRead v s k) ∧
    (∀ l, (ls.foldl (prepSlot c y) v).level l =
      match ls.reverse.find? (fun s => slotEnabled v s y && (levelOf s == l)) with
      | some s => freshLevel c (advanceRow c y v s) s
      | none => v.level l) ∧
    (∀ l, levelBit (ls.foldl (prepSlot c y) v).ve l =
      (ls.any (fun s => slotEnabled v s y && (levelOf s == l)) || levelBit v.ve l)) ∧
    (∀ l, levelBit (ls.foldl (prepSlot c y) v).lst l =
      ((c.liveOnEnable && ls.any (fun s => slotEnabled v s y && (levelOf s == l))) || levelBit v.lst l)) ∧
    (ls.foldl (prepSlot c y) v).csel = v.csel ∧ (ls.foldl (prepSlot c y) v).outbuf = v.outbuf ∧
    (ls.foldl (prepSlot c y) v).result = v.result ∧ (ls.foldl (prepSlot c y) v).tileCalls = v.tileCalls := by
  induction ls using List.reverseRecOn with
  | nil => simp
  | append_singleton ls s ih =>
    have hns : s ∉ ls := by
      intro h
      have := List.nodup_append.1 hn
      exact this.2.2 s h s (by simp) rfl
    obtain ⟨i1, i2, i3, i4, i5, i6, i7, i8⟩ := ih (List.nodup_append.1 hn).1
    rw [List.foldl_append]
    simp only [List.foldl_cons, List.foldl_nil]
    generalize hr : ls.foldl (prepSlot c y) v = r at *
    have hbytes : ∀ k, sprRead r s k = sprRead v s k := fun k => by rw [i1, if_neg hns]
    obtain ⟨he, hf, ha⟩ := slot_congr c y hbytes
    obtain ⟨p1, p2, p3, p4, p5, p6, p7, p8⟩ := prepSlot_spec c y r s
    refine ⟨?_, ?_, ?_, ?_, by rw [p5, i5], by rw [p6, i6], by rw [p7, i7], by rw [p8, i8]⟩
    · intro s' k
      rw [p1]
      by_cases h : s' = s
      · subst h; simp [ha]
      · simp [h, i1]
    · intro l
      rw [p2, he, hf, List.reverse_append]
      simp only [List.reverse_cons, List.reverse_nil, List.nil_append, List.singleton_append, List.find?_cons]
      by_cases h : slotEnabled v s y = true ∧ levelOf s = l
      · simp [h.1, h.2]
      · rw [if_neg h, i2]
        have : (slotEnabled v s y && (levelOf s == l)) = false := by
          rw [Bool.and_eq_false_iff]
          by_cases h1 : slotEnabled v s y = true
          · right; simp; exact fun h2 => h ⟨h1, h2⟩
          · left; simpa using h1
        rw [this]
    · intro l
      rw [p3, i3, he]
      simp only [List.any_append, List.any_cons, List.any_nil, Bool.or_false]
      cases (slotEnabled v s y && (levelOf s == l)) <;> simp
    · intro l
      rw [p4, i4, he]
      simp only [List.any_append, List.any_cons, List.any_nil, Bool.or_false]
      cases (slotEnabled v s y && (levelOf s == l)) <;> cases c.liveOnEnable <;> simp

theorem slots_nodup : slots.Nodup := by decide

theorem mem_slots (s : Fin 16) : s ∈ slots := by revert s; decide

/-- Of the two slots of a level the upper one is found first from the end of the list (10_state.md R23). -/
theorem find_level_slot (e : Fin 16 → Bool) (l : Fin 8) :
    slots.reverse.find? (fun s => e s && (levelOf s == l)) =
      if e (highSlot l) then some (highSlot l) else if e (lowSlot l) then some (lowSlot l) else none := by
  have key : ∀ l : Fin 8, slots.reverse.filter (fun s => levelOf s == l) = [highSlot l, lowSlot l] := by decide
  have h : (fun s => e s && (levelOf s == l)) = fun s => decide ((levelOf s == l) = true ∧ e s = true) := by
    funext s; cases e s <;> cases (levelOf s == l) <;> rfl
  rw [h, ← List.find?_filter, key]
  cases h1 : e (highSlot l) <;> cases h2 : e (lowSlot l) <;> simp [h1, h2]

theorem any_level_slot (e : Fin 16 → Bool) (l : Fin 8) :
    slots.any (fun s => e s && (levelOf s == l)) = (e (lowSlot l) || e (highSlot l)) := by
  have key : ∀ l : Fin 8, slots.filter (fun s => levelOf s == l) = [lowSlot l, highSlot l] := by decide
  have h : (fun s => e s && (levelOf s == l)) = fun s => (levelOf s == l) && e s := by
    funext s; exact Bool.and_comm _ _
  rw [h, ← List.any_filter, key]
  simp

/-- PREP said once (R151 to R161). -/
theorem prepVideo_spec (c : Config) (y : Byte) (v : Video) :
    (∀ s k, sprRead (prepVideo c y v) s k = sprRead (slotAfter c y v s) s k) ∧
    (∀ l, (prepVideo c y v).level l =
      if slotEnabled v (highSlot l) y then freshLevel c (advanceRow c y v (highSlot l)) (highSlot l)
      else if slotEnabled v (lowSlot l) y then freshLevel c (advanceRow c y v (lowSlot l)) (lowSlot l)
      else v.level l) ∧
    (∀ l, levelBit (prepVideo c y v).ve l = (slotEnabled v (lowSlot l) y || slotEnabled v (highSlot l) y)) ∧
    (∀ l, levelBit (prepVideo c y v).lst l =
      (c.liveOnEnable && (slotEnabled v (lowSlot l) y || slotEnabled v (highSlot l) y))) ∧
    (prepVideo c y v).csel = v.csel ∧ (prepVideo c y v).outbuf = v.outbuf ∧
    (prepVideo c y v).result = v.result ∧ (prepVideo c y v).tileCalls = v.tileCalls := by
  unfold prepVideo
  obtain ⟨h1, h2, h3, h4, h5⟩ := prepLoop_spec c y { v with ve := 0x00, lst := 0x00 } slots slots_nodup
  have hb : ∀ s : Fin 16, ∀ k, sprRead { v with ve := 0x00, lst := 0x00 } s k = sprRead v s k := fun _ _ => rfl
  refine ⟨?_, ?_, ?_, ?_, h5⟩
  · intro s k
    rw [h1, if_pos (mem_slots s)]
    exact (slot_congr c y (hb s)).2.2 k
  · intro l
    rw [h2, find_level_slot (fun s => slotEnabled { v with ve := 0x00, lst := 0x00 } s y) l]
    simp only [(slot_congr c y (hb (highSlot l))).1, (slot_congr c y (hb (lowSlot l))).1]
    by_cases hh : slotEnabled v (highSlot l) y = true
    · simp only [hh, if_true]
      exact (slot_congr c y (hb (highSlot l))).2.1
    · by_cases hl : slotEnabled v (lowSlot l) y = true
      · simp only [hh, hl, if_true]
        exact (slot_congr c y (hb (lowSlot l))).2.1
      · simp only [hh, hl]
        rfl
  · intro l
    rw [h3, any_level_slot (fun s => slotEnabled { v with ve := 0x00, lst := 0x00 } s y) l]
    simp only [(slot_congr c y (hb (highSlot l))).1, (slot_congr c y (hb (lowSlot l))).1]
    rw [show levelBit (0x00 : Byte) l = false from levelBit_zero l, Bool.or_false]
  · intro l
    rw [h4, any_level_slot (fun s => slotEnabled { v with ve := 0x00, lst := 0x00 } s y) l]
    simp only [(slot_congr c y (hb (highSlot l))).1, (slot_congr c y (hb (lowSlot l))).1]
    rw [show levelBit (0x00 : Byte) l = false from levelBit_zero l, Bool.or_false]

end Sys2Proof.Machine
end

