-- ==== Sys2Proof/Laws/Compositor.lean ====
section
/-!
SUPPORT. What one COMPOSE and one LINE leave (spec/43_compositor.md R212 to R224).
-/

namespace Sys2Proof.Machine

/-- A limited palette index is below `2^PAL_BITS` (R217). -/
theorem limitPalette_lt (c : Config) (p : U16) : (limitPalette c p).toNat < 2 ^ (c.palBits c.board).val := by
  have h : p.toNat % 2 ^ (c.palBits c.board).val < 2 ^ (c.palBits c.board).val := Nat.mod_lt _ (by positivity)
  unfold limitPalette
  rw [BitVec.toNat_ofNat]
  exact Nat.lt_of_le_of_lt (Nat.mod_le _ _) h

theorem composeFn_pix_lt (c : Config) (g : GatherIn) : (composeFn c g).pix.toNat < 2 ^ (c.palBits c.board).val := by
  unfold composeFn
  dsimp only
  split <;> exact limitPalette_lt _ _

/-- The palette index COMPOSE computes for a pixel. -/
def composedPixel (c : Config) (y : Byte) (x : U16) (v : Video) : U16 :=
  (composeFn c (gather c (sample c v).1 y x (sample c v).2)).pix

@[simp] theorem compose_level (c y x v l) : (compose c y x v).1.level l = (sample c v).1.level l := rfl
@[simp] theorem compose_levels (c y x v) : (compose c y x v).1.levels = (sample c v).1.levels := rfl
@[simp] theorem compose_lst (c y x v) : (compose c y x v).1.lst = (sample c v).1.lst := rfl
@[simp] theorem compose_ve (c y x v) : (compose c y x v).1.ve = v.ve := (sample_spec c v).2.2.2.2.2.1
@[simp] theorem compose_spr (c y x v) : (compose c y x v).1.spr = v.spr := (sample_spec c v).2.2.2.2.1
@[simp] theorem compose_csel (c y x v) : (compose c y x v).1.csel = v.csel := (sample_spec c v).2.2.2.2.2.2.1
@[simp] theorem compose_result (c y x v) : (compose c y x v).1.result = v.result :=
  (sample_spec c v).2.2.2.2.2.2.2.2.1
@[simp] theorem compose_tileCalls (c y x v) : (compose c y x v).1.tileCalls = v.tileCalls + 1 := by
  show (sample c v).1.tileCalls + 1 = _
  rw [(sample_spec c v).2.2.2.2.2.2.2.2.2]
@[simp] theorem compose_outbuf (c y x v) : (compose c y x v).1.outbuf =
    Memory.write v.outbuf (pixelKey y x) (composedPixel c y x v) := by
  show Memory.write (sample c v).1.outbuf (pixelKey y x) _ = _
  rw [(sample_spec c v).2.2.2.2.2.2.2.1]
  rfl

@[simp] theorem lineColumn_spr (c y v x) : (lineColumn c y v x).spr = v.spr := by simp [lineColumn]
@[simp] theorem lineColumn_ve (c y v x) : (lineColumn c y v x).ve = v.ve := by simp [lineColumn]
@[simp] theorem lineColumn_csel (c y v x) : (lineColumn c y v x).csel = v.csel := by simp [lineColumn]
@[simp] theorem lineColumn_result (c y v x) : (lineColumn c y v x).result = v.result := by simp [lineColumn]
@[simp] theorem lineColumn_tileCalls (c y v x) : (lineColumn c y v x).tileCalls = v.tileCalls + 1 := by
  simp [lineColumn]

/-- A property that PREP establishes and every column keeps holds after LINE: the loop's induction, once. -/
theorem lineVideo_induct (c : Config) (y : Byte) (v : Video) (P : Video → Prop) (h0 : P (prepVideo c y v))
    (hstep : ∀ v x, x < c.hPixels → P v → P (lineColumn c y v x)) : P (lineVideo c y v) := by
  unfold lineVideo
  have key : ∀ (ls : List Nat), (∀ x ∈ ls, x < c.hPixels) → ∀ v, P v → P (ls.foldl (lineColumn c y) v) := by
    intro ls
    induction ls with
    | nil => intro _ v hv; exact hv
    | cons x ls ih =>
      intro hls v hv
      exact ih (fun z hz => hls z (by simp [hz])) _ (hstep v x (hls x (by simp)) hv)
  exact key _ (fun x hx => List.mem_range.1 hx) _ h0

/-- The same induction with the column reached: the property may speak of how far the row has come. -/
theorem lineVideo_induct_upto (c : Config) (y : Byte) (v : Video) (P : Nat → Video → Prop)
    (h0 : P 0 (prepVideo c y v)) (hstep : ∀ v x, x < c.hPixels → P x v → P (x + 1) (lineColumn c y v x)) :
    P c.hPixels (lineVideo c y v) := by
  unfold lineVideo
  generalize prepVideo c y v = u at h0
  have key : ∀ n, n ≤ c.hPixels → P n ((List.range n).foldl (lineColumn c y) u) := by
    intro n
    induction n with
    | zero => intro _; exact h0
    | succ n ih =>
      intro hn
      rw [List.range_succ, List.foldl_append, List.foldl_cons, List.foldl_nil]
      exact hstep _ n (by omega) (ih (by omega))
  exact key _ (Nat.le_refl _)

/-- The induction for two rows side by side. -/
theorem lineVideo_induct_pair (c : Config) (y : Byte) (v w : Video) (P : Nat → Video → Video → Prop)
    (h0 : P 0 (prepVideo c y v) (prepVideo c y w))
    (hstep : ∀ v w x, x < c.hPixels → P x v w → P (x + 1) (lineColumn c y v x) (lineColumn c y w x)) :
    P c.hPixels (lineVideo c y v) (lineVideo c y w) := by
  unfold lineVideo
  generalize prepVideo c y v = u at h0
  generalize prepVideo c y w = u' at h0
  have key : ∀ n, n ≤ c.hPixels →
      P n ((List.range n).foldl (lineColumn c y) u) ((List.range n).foldl (lineColumn c y) u') := by
    intro n
    induction n with
    | zero => intro _; exact h0
    | succ n ih =>
      intro hn
      simp only [List.range_succ, List.foldl_append, List.foldl_cons, List.foldl_nil]
      exact hstep _ _ n (by omega) (ih (by omega))
  exact key _ (Nat.le_refl _)

/-- `H_PIXELS` fits the column operand. -/
theorem hPixels_le (c : Config) : c.hPixels ≤ 65536 := by unfold Config.hPixels; omega

end Sys2Proof.Machine
end

