-- ==== Sys2Proof/Laws/Controller.lean ====
section
/-!
SUPPORT. The fields of the output register and what a TICK, a line write and a read leave (spec/44_controller.md).
-/

namespace Sys2Proof.Machine

@[simp] theorem outAck_outByte (a l : Bool) (d : Nibble) : outAck (outByte a l d) = a := by revert a l d; decide
@[simp] theorem outLh_outByte (a l : Bool) (d : Nibble) : outLh (outByte a l d) = l := by revert a l d; decide
@[simp] theorem outData_outByte (a l : Bool) (d : Nibble) : outData (outByte a l d) = d := by revert a l d; decide
@[simp] theorem outByte_high (a l : Bool) (d : Nibble) : (outByte a l d).extractLsb' 6 2 = 0 := by
  revert a l d; decide

/-- The count in numerals, for `omega`, which does not look into `nSteps` (R105). -/
theorem Pad.tcount_lt (p : Pad) : p.tcount.val < 22 := p.tcount.isLt

/-- The step index of a count, and the nibble it selects (R253). -/
@[simp] theorem stepIndex_val (count : Fin nSteps) : (stepIndex count).val = count.val / 2 := rfl
@[simp] theorem nibbleIndex_val (count : Fin nSteps) (interface : Bool) :
    (nibbleIndex count interface).val = (stepIndex count).val ^^^ interface.toNat := rfl

/-- A TICK in one place: the output by the parity of the count, and the next TICK or the stop (R250 to R252). -/
theorem tick_spec (c : Config) (p : Pad) :
    (tick c p).out = (if p.tcount.val % 2 = 0 then outByte c.ackEven (!outLh p.out) (outData p.out)
      else outByte c.ackOdd (outLh p.out) (bufferNibble p.data (nibbleIndex p.tcount p.interface))) ∧
    (p.tcount.val < 21 → (tick c p).tpend = true ∧ (tick c p).tcount.val = p.tcount.val + 1 ∧
      (tick c p).tdue = c.tStep) ∧
    (p.tcount.val = 21 → (tick c p).tpend = false ∧ (tick c p).tcount = p.tcount) ∧
    (tick c p).data = p.data ∧ (tick c p).req = p.req ∧ (tick c p).mode = p.mode ∧
    (tick c p).interface = p.interface ∧ (tick c p).result = p.result ∧ (tick c p).calls = p.calls := by
  have hb := p.tcount_lt
  unfold tick
  by_cases he : p.tcount.val % 2 = 0
  · rw [if_pos he, if_pos he]
    unfold reschedule
    by_cases h : p.tcount.val < 21
    · have h' : (tickEven c (expire p)).tcount.val < lastCount.val := h
      rw [dif_pos h']
      refine ⟨rfl, fun _ => ⟨rfl, rfl, rfl⟩, fun h21 => ?_, rfl, rfl, rfl, rfl, rfl, rfl⟩
      omega
    · omega
  · rw [if_neg he, if_neg he]
    unfold reschedule
    by_cases h : p.tcount.val < 21
    · have h' : (tickOdd c (expire p)).tcount.val < lastCount.val := h
      rw [dif_pos h']
      refine ⟨rfl, fun _ => ⟨rfl, rfl, rfl⟩, fun h21 => ?_, rfl, rfl, rfl, rfl, rfl, rfl⟩
      omega
    · have h' : ¬ (tickOdd c (expire p)).tcount.val < lastCount.val := h
      rw [dif_neg h']
      exact ⟨rfl, fun h1 => absurd h1 h, fun _ => ⟨rfl, rfl⟩, rfl, rfl, rfl, rfl, rfl, rfl⟩

/-- OUT_R writes the result port and the call counter only (R254). -/
theorem outRead_spec (c : Config) (p : Pad) :
    outRead c p = { p with result := (outRead c p).result, calls := (outRead c p).calls } := by
  unfold outRead
  split <;> rfl

/-- A controller operation keeps the controller invariant. -/
theorem PadInv.tick {p : Pad} (c : Config) (h : PadInv p) (hp : p.tpend = true) : PadInv (tick c p) := by
  obtain ⟨h1, -, -, -, -, h6, -⟩ := tick_spec c p
  refine ⟨?_, ?_⟩
  · rw [h1]; split <;> exact outByte_high _ _ _
  · intro hm
    rw [h6] at hm
    have := (h.digitalIdle hm).1
    rw [hp] at this
    exact absurd this (by decide)

theorem PadInv.reqWrite {p : Pad} (c : Config) (v : Bool) (h : PadInv p) : PadInv (reqWrite c v p) := by
  unfold Machine.reqWrite
  split
  · exact h
  · split
    · rename_i hm
      refine ⟨h.outHigh, fun hd => ?_⟩
      have hd' : p.mode = false := hd
      rw [hm.1] at hd'
      exact absurd hd' (by decide)
    · exact ⟨h.outHigh, h.digitalIdle⟩

theorem PadInv.modeWrite {p : Pad} (v : Bool) (h : PadInv p) : PadInv (modeWrite v p) := by
  unfold Machine.modeWrite
  split
  · exact h
  · split
    · exact ⟨by show idleOut.extractLsb' 6 2 = 0; decide, fun _ => ⟨rfl, rfl⟩⟩
    · rename_i hv
      refine ⟨h.outHigh, fun hd => ?_⟩
      have hd' : v = false := hd
      exact absurd hd' hv

theorem PadInv.interfaceWrite {p : Pad} (v : Bool) (h : PadInv p) : PadInv (interfaceWrite v p) :=
  ⟨h.outHigh, h.digitalIdle⟩

theorem PadInv.outRead {p : Pad} (c : Config) (h : PadInv p) : PadInv (outRead c p) := by
  rw [outRead_spec]
  exact ⟨h.outHigh, h.digitalIdle⟩

theorem PadInv.resetPad (p : Pad) : PadInv (resetPad p) :=
  ⟨by show idleOut.extractLsb' 6 2 = 0; decide, fun h => absurd (show true = false from h) (by decide)⟩

end Sys2Proof.Machine
end

