-- ==== Sys2Proof/Laws/Decode.lean ====
section
/-!
SUPPORT. The four fields of a command word and the word of four fields are each other's inverses (spec/30_encoding.md
R108), and what each shared decoding form accepts.
-/

namespace Sys2Proof

@[simp] theorem opField_word (op a b c : Byte) : opField (word op a b c) = op := by
  apply BitVec.eq_of_getLsbD_eq
  intro i hi
  simp only [opField, word, BitVec.getLsbD_extractLsb', BitVec.getLsbD_append, hi, decide_true, Bool.true_and]
  have h1 : ¬ 24 + i < 8 + 8 := by omega
  have h2 : ¬ 24 + i - (8 + 8) < 8 := by omega
  have h3 : 24 + i - (8 + 8) - 8 = i := by omega
  simp [h1, h2, h3]

@[simp] theorem aField_word (op a b c : Byte) : aField (word op a b c) = a := by
  apply BitVec.eq_of_getLsbD_eq
  intro i hi
  simp only [aField, word, BitVec.getLsbD_extractLsb', BitVec.getLsbD_append, hi, decide_true, Bool.true_and]
  have h1 : ¬ 16 + i < 8 + 8 := by omega
  have h2 : 16 + i - (8 + 8) = i := by omega
  simp [h1, h2, hi]

@[simp] theorem bField_word (op a b c : Byte) : bField (word op a b c) = b := by
  apply BitVec.eq_of_getLsbD_eq
  intro i hi
  simp only [bField, word, BitVec.getLsbD_extractLsb', BitVec.getLsbD_append, hi, decide_true, Bool.true_and]
  have h1 : 8 + i < 8 + 8 := by omega
  have h2 : ¬ 8 + i < 8 := by omega
  have h3 : 8 + i - 8 = i := by omega
  simp [h1, h2, h3]

@[simp] theorem cField_word (op a b c : Byte) : cField (word op a b c) = c := by
  apply BitVec.eq_of_getLsbD_eq
  intro i hi
  simp only [cField, word, BitVec.getLsbD_extractLsb', BitVec.getLsbD_append, hi, decide_true, Bool.true_and,
    Nat.zero_add]
  have h1 : i < 8 + 8 := by omega
  rw [if_pos h1]
  simp

/-- A command word is its four fields. -/
theorem word_fields (w : Command) : word (opField w) (aField w) (bField w) (cField w) = w := by
  apply BitVec.eq_of_getLsbD_eq
  intro i hi
  simp only [word, opField, aField, bField, cField, BitVec.getLsbD_append, BitVec.getLsbD_extractLsb']
  by_cases h0 : i < 8
  · have : i < 8 + 8 := by omega
    simp [h0, this]
  · by_cases h1 : i < 8 + 8
    · have h2 : i - 8 < 8 := by omega
      have h3 : 8 + (i - 8) = i := by omega
      simp [h0, h1, h2, h3]
    · by_cases h2 : i - (8 + 8) < 8
      · have h3 : 16 + (i - (8 + 8)) = i := by omega
        simp [h1, h2, h3]
      · have h3 : i - (8 + 8) - 8 < 8 := by omega
        have h4 : 24 + (i - (8 + 8) - 8) = i := by omega
        simp [h1, h2, h3, h4]

/-- Decoding a word of given fields is the operation map on them. -/
theorem decode_word (op a b c : Byte) : decode (word op a b c) = decodeFields op a b c := by
  simp [decode]

theorem decodePlain_eq_ok {a b c : Byte} {i j : Instr} :
    decodePlain a b c i = .ok j ↔ a = 0 ∧ b = 0 ∧ c = 0 ∧ i = j := by
  unfold decodePlain
  split
  · rename_i h; simp [h]
  · rename_i h; simp; intro h1 h2 h3; exact absurd ⟨h1, h2, h3⟩ h

theorem decodeByte_eq_ok {a b c : Byte} {f : Byte → Instr} {j : Instr} :
    decodeByte a b c f = .ok j ↔ a = 0 ∧ b = 0 ∧ f c = j := by
  unfold decodeByte
  split
  · rename_i h; simp [h]
  · rename_i h; simp; intro h1 h2; exact absurd ⟨h1, h2⟩ h

theorem decodeLevel_eq_ok {a b c : Byte} {f : Bool → Instr} {j : Instr} :
    decodeLevel a b c f = .ok j ↔ a = 0 ∧ b = 0 ∧ ∃ v, c = levelByte v ∧ f v = j := by
  have h10 : (1#8 = 0#8) = False := by simp
  unfold decodeLevel
  by_cases hab : a = 0 ∧ b = 0
  · rw [if_pos hab]
    by_cases h0 : c = 0
    · simp [hab, h0, levelByte]
    · by_cases h1 : c = 1
      · simp [hab, h1, levelByte]
      · rw [if_neg h0, if_neg h1]
        simp only [reduceCtorEq, Bool.exists_bool, levelByte, Bool.false_eq_true, if_false, if_true, h0, h1,
          false_and, or_self, and_false]
  · rw [if_neg hab]
    simp only [reduceCtorEq, false_iff]
    rintro ⟨h1, h2, -⟩
    exact hab ⟨h1, h2⟩

theorem decodeCselW_eq_ok {a b c : Byte} {j : Instr} :
    decodeCselW a b c = .ok j ↔ a = 0 ∧ Instr.cselW b c = j := by
  unfold decodeCselW
  split
  · rename_i h; simp [h]
  · rename_i h; simp; intro h1; exact absurd h1 h

theorem decodeSprW_eq_ok {a b c : Byte} {j : Instr} :
    decodeSprW a b c = .ok j ↔
      ∃ (s : Fin 16) (k : Fin 8), a = BitVec.ofNat 8 s.val ∧ b = BitVec.ofNat 8 k.val ∧ Instr.sprW s k c = j := by
  unfold decodeSprW
  by_cases hs : a.toNat < 16
  · by_cases hk : b.toNat < 8
    · rw [dif_pos hs, dif_pos hk]
      constructor
      · intro h
        exact ⟨⟨a.toNat, hs⟩, ⟨b.toNat, hk⟩, by simp, by simp, by simpa using h⟩
      · rintro ⟨s, k, rfl, rfl, rfl⟩
        have h1 : s.val % 256 = s.val := Nat.mod_eq_of_lt (by omega)
        have h2 : k.val % 256 = k.val := Nat.mod_eq_of_lt (by omega)
        simp [h1, h2]
    · rw [dif_pos hs, dif_neg hk]
      simp only [reduceCtorEq, false_iff]
      rintro ⟨s, k, -, rfl, -⟩
      apply hk
      simp; omega
  · rw [dif_neg hs]
    simp only [reduceCtorEq, false_iff]
    rintro ⟨s, k, rfl, -, -⟩
    apply hs
    simp; omega

/-- The column of COMPOSE goes back to the fields `b` and `c`. -/
theorem encode_compose (a b c : Byte) : encode (.compose a (b ++ c)) = word 0x16 a b c := by
  have h1 : (b ++ c).extractLsb' 8 8 = b := by
    apply BitVec.eq_of_getLsbD_eq
    intro i hi
    have h2 : ¬ 8 + i < 8 := by omega
    have h3 : 8 + i - 8 = i := by omega
    rw [BitVec.getLsbD_extractLsb', BitVec.getLsbD_append, if_neg h2, h3]
    simp [hi]
  have h0 : (b ++ c).extractLsb' 0 8 = c := by
    apply BitVec.eq_of_getLsbD_eq
    intro i hi
    rw [BitVec.getLsbD_extractLsb', BitVec.getLsbD_append, Nat.zero_add, if_pos hi]
    simp [hi]
  show word 0x16 a _ _ = _
  rw [h1, h0]

/-- The whole operation map, read from its answer: which fields each operation comes from. -/
theorem decodeFields_eq_ok {op a b c : Byte} {j : Instr} (h : decodeFields op a b c = .ok j) :
    encode j = word op a b c := by
  unfold decodeFields at h
  by_cases e : op = 0x00
  · rw [if_pos e] at h; obtain ⟨rfl, rfl, rfl, rfl⟩ := decodePlain_eq_ok.1 h; rw [e]; rfl
  rw [if_neg e] at h; clear e
  by_cases e : op = 0x01
  · rw [if_pos e] at h; obtain ⟨rfl, rfl, rfl, rfl⟩ := decodePlain_eq_ok.1 h; rw [e]; rfl
  rw [if_neg e] at h; clear e
  by_cases e : op = 0x10
  · rw [if_pos e] at h; obtain ⟨s, k, rfl, rfl, rfl⟩ := decodeSprW_eq_ok.1 h; rw [e]; rfl
  rw [if_neg e] at h; clear e
  by_cases e : op = 0x11
  · rw [if_pos e] at h; obtain ⟨rfl, rfl⟩ := decodeCselW_eq_ok.1 h; rw [e]; rfl
  rw [if_neg e] at h; clear e
  by_cases e : op = 0x12
  · rw [if_pos e] at h; obtain ⟨rfl, rfl, rfl⟩ := decodeByte_eq_ok.1 h; rw [e]; rfl
  rw [if_neg e] at h; clear e
  by_cases e : op = 0x13
  · rw [if_pos e] at h; obtain ⟨rfl, rfl, rfl⟩ := decodeByte_eq_ok.1 h; rw [e]; rfl
  rw [if_neg e] at h; clear e
  by_cases e : op = 0x14
  · rw [if_pos e] at h; obtain ⟨rfl, rfl, rfl⟩ := decodeByte_eq_ok.1 h; rw [e]; rfl
  rw [if_neg e] at h; clear e
  by_cases e : op = 0x15
  · rw [if_pos e] at h; obtain ⟨rfl, rfl, rfl, rfl⟩ := decodePlain_eq_ok.1 h; rw [e]; rfl
  rw [if_neg e] at h; clear e
  by_cases e : op = 0x16
  · rw [if_pos e] at h; obtain rfl := Except.ok.inj h; rw [e]; exact encode_compose a b c
  rw [if_neg e] at h; clear e
  by_cases e : op = 0x17
  · rw [if_pos e] at h; obtain ⟨rfl, rfl, rfl⟩ := decodeByte_eq_ok.1 h; rw [e]; rfl
  rw [if_neg e] at h; clear e
  by_cases e : op = 0x20
  · rw [if_pos e] at h; obtain ⟨rfl, rfl, v, rfl, rfl⟩ := decodeLevel_eq_ok.1 h; rw [e]; rfl
  rw [if_neg e] at h; clear e
  by_cases e : op = 0x21
  · rw [if_pos e] at h; obtain ⟨rfl, rfl, v, rfl, rfl⟩ := decodeLevel_eq_ok.1 h; rw [e]; rfl
  rw [if_neg e] at h; clear e
  by_cases e : op = 0x22
  · rw [if_pos e] at h; obtain ⟨rfl, rfl, v, rfl, rfl⟩ := decodeLevel_eq_ok.1 h; rw [e]; rfl
  rw [if_neg e] at h; clear e
  by_cases e : op = 0x23
  · rw [if_pos e] at h; obtain ⟨rfl, rfl, rfl, rfl⟩ := decodePlain_eq_ok.1 h; rw [e]; rfl
  rw [if_neg e] at h; clear e
  by_cases e : op = 0x24
  · rw [if_pos e] at h; obtain ⟨rfl, rfl, rfl, rfl⟩ := decodePlain_eq_ok.1 h; rw [e]; rfl
  rw [if_neg e] at h; clear e
  cases h

theorem word_inj {a b c d a' b' c' d' : Byte} :
    word a b c d = word a' b' c' d' ↔ a = a' ∧ b = b' ∧ c = c' ∧ d = d' := by
  constructor
  · intro h
    refine ⟨?_, ?_, ?_, ?_⟩
    · simpa using congrArg opField h
    · simpa using congrArg aField h
    · simpa using congrArg bField h
    · simpa using congrArg cField h
  · rintro ⟨rfl, rfl, rfl, rfl⟩; rfl

theorem word_and (a b c d a' b' c' d' : Byte) :
    word a b c d &&& word a' b' c' d' = word (a &&& a') (b &&& b') (c &&& c') (d &&& d') := by
  unfold word
  rw [BitVec.and_append, BitVec.and_append, BitVec.and_append]

/-- A row of the table matches a word field by field. -/
theorem matchesWord_word (m : String) (p0 p1 p2 p3 m0 m1 m2 m3 a b c d : Byte) :
    OpcodeRow.matchesWord ⟨m, word p0 p1 p2 p3, word m0 m1 m2 m3⟩ (word a b c d) = true ↔
      a &&& m0 = p0 ∧ b &&& m1 = p1 ∧ c &&& m2 = p2 ∧ d &&& m3 = p3 := by
  unfold OpcodeRow.matchesWord
  rw [beq_iff_eq, word_and, word_inj]

end Sys2Proof
end

