-- ==== Sys2Proof/Laws/Dispatch.lean ====
section
/-!
SUPPORT. What an operation of each agent can do, said once (spec/00_scope.md R13, 60_exceptions.md R290).
-/

namespace Sys2Proof.Machine

/-- An operation of the video core either always completes, as a function of the video core alone, or is always refused. -/
theorem exec_video (i : Instr) (h : i.agent = .video) :
    (∃ f : Video → Video, ∀ s, exec i s = .next (s.setVideo (f s.video))) ∨ ∃ r, ∀ s, exec i s = .refused r := by
  cases i <;> try cases h
  case sprW a k x => exact .inl ⟨fun v => sprWrite v a k x, fun _ => rfl⟩
  case cselW i x =>
    by_cases hi : i.toNat < config.cselBytes
    · exact .inl ⟨fun v => cselWrite v i.toNat x, fun s => if_pos hi⟩
    · exact .inr ⟨_, fun s => if_neg hi⟩
  case scale b => exact .inl ⟨scaleVideo config b, fun _ => rfl⟩
  case prep y => exact .inl ⟨prepVideo config y, fun _ => rfl⟩
  case hstart m => exact .inl ⟨hstartVideo m, fun _ => rfl⟩
  case sample => exact .inl ⟨sampleVideo config, fun _ => rfl⟩
  case compose y x =>
    by_cases hx : x.toNat < config.hPixels
    · exact .inl ⟨composeVideo config y x, fun s => if_pos hx⟩
    · exact .inr ⟨_, fun s => if_neg hx⟩
  case line y => exact .inl ⟨lineVideo config y, fun _ => rfl⟩

/-- An operation of the controller completes or not by the controller's state alone, and is a function of it. -/
theorem exec_controller (i : Instr) (h : i.agent = .controller) :
    ∃ (g : Pad → Bool) (f : Pad → Pad) (r : Refusal), ∀ s,
      exec i s = if g s.pad then .next (s.setPad (f s.pad)) else .refused r := by
  cases i <;> try cases h
  case reqW v => exact ⟨fun _ => true, reqWrite config v, .tickNotPending, fun _ => rfl⟩
  case modeW v => exact ⟨fun _ => true, modeWrite v, .tickNotPending, fun _ => rfl⟩
  case ifW v => exact ⟨fun _ => true, interfaceWrite v, .tickNotPending, fun _ => rfl⟩
  case outR => exact ⟨fun _ => true, outRead config, .tickNotPending, fun _ => rfl⟩
  case tick => exact ⟨Pad.tpend, tick config, .tickNotPending, fun _ => rfl⟩

/-- What an operation does does not depend on the commands still to come, and it keeps them. -/
theorem exec_cmds (i : Instr) (s : State) (q : List Command) :
    exec i { s with cmds := q } = match exec i s with
      | .next t => .next { t with cmds := q }
      | .fault r => .fault r
      | .refused r => .refused r := by
  cases i <;> simp only [exec, execNop, execReset, execSprW, execCselW, execScale, execPrep, execHstart, execSample,
    execCompose, cselWUnder, composeUnder, execLine, execReqW, execModeW, execIfW, execOutR, execTick]
  case cselW => split <;> rfl
  case compose => split <;> rfl
  case tick => split <;> rfl
  all_goals rfl

/-- With no command left, a pending TICK is the step (log 15). -/
theorem step_tick {s : State} (hc : s.cmds = []) (hp : s.pad.tpend = true) :
    core.step s = .next (s.setPad (tick config s.pad)) := by
  show step s = _
  simp only [step, fetchCommand, hc, idleStep, execTick, hp, if_true]
  rfl

/-- One step, then the rest. -/
theorem run_succ_of_next {k : Nat} {s t : State} (h : core.step s = .next t) : core.run (k + 1) s = core.run k t := by
  simp only [Host.Core.run, h]

/-- The timer's state after `k` undisturbed TICKs of a shift that has not ended (44_controller.md R252). -/
theorem tick_iterate (c : Config) (p : Pad) (hp : p.tpend = true) (k : Nat) (hk : p.tcount.val + k < 22) :
    ((tick c)^[k] p).tpend = true ∧ ((tick c)^[k] p).tcount.val = p.tcount.val + k ∧
    ((tick c)^[k] p).data = p.data ∧ ((tick c)^[k] p).interface = p.interface ∧ ((tick c)^[k] p).req = p.req ∧
    ((tick c)^[k] p).mode = p.mode := by
  induction k with
  | zero => exact ⟨hp, rfl, rfl, rfl, rfl, rfl⟩
  | succ k ih =>
    obtain ⟨-, i2, i3, i4, i5, i6⟩ := ih (by omega)
    rw [Function.iterate_succ_apply']
    obtain ⟨-, h2, -, h4, h5, h6, h7, -⟩ := tick_spec c ((tick c)^[k] p)
    obtain ⟨h2a, h2b, -⟩ := h2 (by omega)
    exact ⟨h2a, by omega, h4.trans i3, h7.trans i4, h5.trans i5, h6.trans i6⟩

/-- With no command left, `k` steps of a pending shift are `k` TICKs. -/
theorem run_ticks (k : Nat) (s : State) (hc : s.cmds = []) (hp : s.pad.tpend = true) (hk : s.pad.tcount.val + k ≤ 22) :
    core.run k s = .next (s.setPad ((tick config)^[k] s.pad)) := by
  induction k generalizing s with
  | zero => rfl
  | succ k ih =>
    have h1 := run_succ_of_next (k := k) (step_tick hc hp)
    refine h1.trans ?_
    obtain ⟨-, h2, -⟩ := tick_spec config s.pad
    by_cases hk0 : k = 0
    · subst hk0; rfl
    · obtain ⟨h2a, h2b, -⟩ := h2 (by omega)
      exact ih (s.setPad (tick config s.pad)) hc h2a (by show (tick config s.pad).tcount.val + k ≤ 22; omega)

end Sys2Proof.Machine
end

