-- ==== Sys2Proof/Laws/Invariant.lean ====
section
/-!
SUPPORT. Every operation of the video core keeps its invariant (spec/10_state.md R31, 42_sprite_sampler.md R195).
-/

namespace Sys2Proof.Machine

/-- The configuration's Turbo end table has no priority bit (30_encoding.md R99). -/
abbrev TurboPlbFree (c : Config) : Prop := ∀ nib, (c.endTurbo nib).plb = false

theorem config_turboPlbFree : TurboPlbFree config := fun _ => rfl

/-- A freshly reset level meets the level invariant. -/
theorem freshLevel_inv (c : Config) (v : Video) (s : Fin 16) (l : Fin 8) : LevelInv c l (freshLevel c v s) where
  inLane := by show (0#32 : U32) &&& ~~~laneMask l = 0; simp
  remainder := by
    show (0#32 : U32).toNat < (unit c.board).toNat
    have := (unit_bounds c.board).1
    simp; omega
  turboPlb := fun _ => rfl

/-- A live level's turn of SAMPLE keeps the level invariant. -/
theorem sampleLevel_inv {c : Config} (hc : TurboPlbFree c) (l : Fin 8) (x : Level) (h : LevelInv c l x) :
    LevelInv c l (sampleLevel c l x).1 where
  inLane := sampleLevel_keeps c l (fun w _ => w &&& ~~~laneMask l = 0) (fun nib => latchWord_inLane nib l) x h.inLane
  remainder := fetchLoop_done c l x
  turboPlb := fun hb => sampleLevel_keeps c l (fun _ b => b = false)
    (fun nib => by unfold endEntry; rw [hb]; exact hc nib) x (h.turboPlb hb)

theorem VideoInv.prep {c : Config} {v : Video} (y : Byte) (h : VideoInv c v) : VideoInv c (prepVideo c y v) := by
  obtain ⟨-, h2, h3, h4, h5, h6, -, -⟩ := prepVideo_spec c y v
  refine ⟨?_, ?_, ?_, ?_, ?_, ?_, ?_⟩
  · rw [h5]; exact h.cselWf
  · rw [h5]; exact h.cselInRange
  · rw [h6]; exact h.outbufWf
  · rw [h6]; exact h.outbufInRange
  · rw [h6]; exact h.outbufPalette
  · rw [live_subset_iff]
    intro l hl
    rw [h4] at hl
    rw [h3]
    exact (Bool.and_eq_true _ _ ▸ hl).2
  · intro l hl
    rw [h3] at hl
    rw [h2]
    split
    · exact freshLevel_inv c _ _ l
    · split
      · exact freshLevel_inv c _ _ l
      · rename_i h1 h2
        simp [h1, h2] at hl

theorem VideoInv.hstart {c : Config} {v : Video} (m : Byte) (h : VideoInv c v) : VideoInv c (hstartVideo m v) where
  cselWf := h.cselWf
  cselInRange := h.cselInRange
  outbufWf := h.outbufWf
  outbufInRange := h.outbufInRange
  outbufPalette := h.outbufPalette
  liveEnabled := by
    rw [live_subset_iff]
    intro l hl
    rw [hstartVideo_lst, levelBit_or, levelBit_and, Bool.or_eq_true, Bool.and_eq_true] at hl
    rcases hl with hl | hl
    · exact (live_subset_iff _ _).1 h.liveEnabled l hl
    · exact hl.1
  enabledLevels := h.enabledLevels

theorem VideoInv.sample {c : Config} {v : Video} (hc : TurboPlbFree c) (h : VideoInv c v) :
    VideoInv c (sample c v).1 := by
  obtain ⟨h1, h2, -, -, -, h6, h7, h8, -, -⟩ := sample_spec c v
  refine ⟨?_, ?_, ?_, ?_, ?_, ?_, ?_⟩
  · rw [h7]; exact h.cselWf
  · rw [h7]; exact h.cselInRange
  · rw [h8]; exact h.outbufWf
  · rw [h8]; exact h.outbufInRange
  · rw [h8]; exact h.outbufPalette
  · rw [live_subset_iff, h6]
    intro l hl
    rw [h2, Bool.and_eq_true] at hl
    exact (live_subset_iff _ _).1 h.liveEnabled l hl.1
  · intro l hl
    rw [h6] at hl
    rw [h1]
    split
    · exact sampleLevel_inv hc l _ (h.enabledLevels l hl)
    · exact h.enabledLevels l hl

/-- Changing the result port or the call counter does not matter to the invariant. -/
theorem VideoInv.ports {c : Config} {v : Video} (r : VideoResult) (n : Nat) (h : VideoInv c v) :
    VideoInv c { v with result := r, tileCalls := n } :=
  ⟨h.cselWf, h.cselInRange, h.outbufWf, h.outbufInRange, h.outbufPalette, h.liveEnabled, h.enabledLevels⟩

theorem VideoInv.pixel {c : Config} {v : Video} (y : Byte) (x : U16) (p : U16) (h : VideoInv c v)
    (hx : x.toNat < c.hPixels) (hp : p.toNat < 2 ^ (c.palBits c.board).val) : VideoInv c (pixelWrite v y x p) where
  cselWf := h.cselWf
  cselInRange := h.cselInRange
  outbufWf := Memory.write_wf _ _ _ h.outbufWf
  outbufInRange := by
    intro q hq
    rcases Memory.mem_write _ _ _ _ hq with ⟨rfl, -⟩ | hq
    · have := y.isLt
      have := x.isLt
      simp only [pixelKey]
      omega
    · exact h.outbufInRange q hq
  outbufPalette := by
    intro q hq
    rcases Memory.mem_write _ _ _ _ hq with ⟨rfl, -⟩ | hq
    · exact hp
    · exact h.outbufPalette q hq
  liveEnabled := h.liveEnabled
  enabledLevels := h.enabledLevels

theorem VideoInv.compose {c : Config} {v : Video} (hc : TurboPlbFree c) (y : Byte) (x : U16) (h : VideoInv c v)
    (hx : x.toNat < c.hPixels) : VideoInv c (compose c y x v).1 :=
  VideoInv.pixel y x _ (VideoInv.ports _ _ (h.sample hc)) hx (composeFn_pix_lt c _)

theorem VideoInv.line {c : Config} {v : Video} (hc : TurboPlbFree c) (y : Byte) (h : VideoInv c v) :
    VideoInv c (lineVideo c y v) := by
  refine lineVideo_induct c y v (VideoInv c) (h.prep y) ?_
  intro v x hx hv
  refine VideoInv.compose hc y _ (hv.hstart _) ?_
  have := hPixels_le c
  rw [BitVec.toNat_ofNat, Nat.mod_eq_of_lt (by omega)]
  exact hx

theorem VideoInv.cselWrite {c : Config} {v : Video} (i : Nat) (x : Byte) (h : VideoInv c v) (hi : i < c.cselBytes) :
    VideoInv c (cselWrite v i x) where
  cselWf := Memory.write_wf _ _ _ h.cselWf
  cselInRange := by
    intro q hq
    rcases Memory.mem_write _ _ _ _ hq with ⟨rfl, -⟩ | hq
    · exact hi
    · exact h.cselInRange q hq
  outbufWf := h.outbufWf
  outbufInRange := h.outbufInRange
  outbufPalette := h.outbufPalette
  liveEnabled := h.liveEnabled
  enabledLevels := h.enabledLevels

theorem VideoInv.sprWrite {c : Config} {v : Video} (s : Fin 16) (k : Fin 8) (x : Byte) (h : VideoInv c v) :
    VideoInv c (sprWrite v s k x) :=
  ⟨h.cselWf, h.cselInRange, h.outbufWf, h.outbufInRange, h.outbufPalette, h.liveEnabled, h.enabledLevels⟩

theorem VideoInv.resetVideo {c : Config} {v : Video} (h : VideoInv c v) : VideoInv c (resetVideo v) where
  cselWf := h.cselWf
  cselInRange := h.cselInRange
  outbufWf := h.outbufWf
  outbufInRange := h.outbufInRange
  outbufPalette := h.outbufPalette
  liveEnabled := by show (0#8 : Byte) &&& _ = 0; simp
  enabledLevels := by
    intro l hl
    have : levelBit 0#8 l = true := hl
    rw [levelBit_zero] at this
    exact absurd this (by decide)

end Sys2Proof.Machine
end

