-- ==== Sys2Proof/Laws/Operands.lean ====
section
/-!
SUPPORT. The operand and index computations in arithmetic (spec/30_encoding.md R94, 42_sprite_sampler.md R185, R189).
-/

namespace Sys2Proof.Machine

/-- The ROM byte index: the level's page, and the offset's half within it (30_encoding.md R94). -/
theorem romIndex_eq (b : Board) (l : Fin 8) (o : U16) :
    romIndex b l o = l.val * 2 ^ pageShift b + (o.toNat / 2) % 2 ^ pageShift b := by
  unfold romIndex
  have e : ((o >>> 1) &&& addrMask b).toNat = (o.toNat / 2) % 2 ^ pageShift b := by
    rw [BitVec.toNat_and, BitVec.toNat_ushiftRight, Nat.shiftRight_eq_div_pow, pow_one]
    have : (addrMask b).toNat = 2 ^ pageShift b - 1 := by cases b <;> rfl
    rw [this, Nat.and_two_pow_sub_one_eq_mod]
  rw [e, ← Nat.shiftLeft_add_eq_or_of_lt (Nat.mod_lt _ (by positivity)), Nat.shiftLeft_eq]

/-- The offset step as a comparison (42_sprite_sampler.md R189). -/
theorem nextOffset_eq (o : U16) : nextOffset o = if o.toNat < 32768 then o + 1 else o - 1 := by
  unfold nextOffset
  have h := o.isLt
  have : o.getLsbD 15 = true ↔ 32768 ≤ o.toNat := by
    rw [← BitVec.testBit_toNat, Nat.testBit_eq_decide_div_mod_eq, decide_eq_true_iff]
    simp only [Nat.reducePow]
    omega
  simp only [this]
  split <;> split <;> first | rfl | omega

/-- The nibble selection by parity (20_memory.md R67). -/
theorem romNibble_eq (b : Byte) (o : U16) :
    romNibble b o = if o.toNat % 2 = 0 then b.extractLsb' 4 4 else b.extractLsb' 0 4 := by
  unfold romNibble
  have : o.getLsbD 0 = true ↔ ¬ o.toNat % 2 = 0 := by
    rw [← BitVec.testBit_toNat, Nat.testBit_eq_decide_div_mod_eq, decide_eq_true_iff]
    simp
  by_cases h : o.toNat % 2 = 0
  · rw [if_neg (fun hb => this.1 hb h), if_pos h]
  · rw [if_pos (this.2 h), if_neg h]

/-- A lane is its four bits. -/
theorem lane_ext {w w' : U32} {l : Fin 8}
    (h : ∀ p : Fin 4, w.getLsbD (8 * p.val + l.val) = w'.getLsbD (8 * p.val + l.val)) : lane w l = lane w' l := by
  have h0 := h 0
  have h1 := h 1
  have h2 := h 2
  have h3 := h 3
  simp at h0 h1 h2 h3
  unfold lane
  rw [h0, h1, h2, h3]

theorem lane_zero (l : Fin 8) : lane 0 l = 0 := by revert l; decide

end Sys2Proof.Machine
end

