-- ==== Sys2Proof/Laws/PerInstr.lean ====
section
/-!
SUPPORT. Per-instruction lemmas, family RoundTrip: decoding the encoding of an operation gives the operation back
(spec/30_encoding.md R108, R109).
-/

namespace Sys2Proof.Laws.RoundTrip

/-- The decoder undoes the encoder on `i`. -/
def Statement (i : Instr) : Prop := decode (encode i) = .ok i

theorem nop : Statement .nop := decode_word 0x00 0 0 0

theorem reset : Statement .reset := decode_word 0x01 0 0 0

theorem sprW (s : Fin 16) (k : Fin 8) (v : Byte) : Statement (.sprW s k v) := by
  show decode (word 0x10 _ _ _) = _
  rw [decode_word]
  exact decodeSprW_eq_ok.2 ⟨s, k, rfl, rfl, rfl⟩

theorem cselW (i v : Byte) : Statement (.cselW i v) := decode_word 0x11 0 i v

theorem scale (b : Byte) : Statement (.scale b) := decode_word 0x12 0 0 b

theorem prep (y : Byte) : Statement (.prep y) := decode_word 0x13 0 0 y

theorem hstart (m : Byte) : Statement (.hstart m) := decode_word 0x14 0 0 m

theorem sample : Statement .sample := decode_word 0x15 0 0 0

theorem compose (y : Byte) (x : U16) : Statement (.compose y x) := by
  show decode (word 0x16 _ _ _) = _
  rw [decode_word]
  have h : x.extractLsb' 8 8 ++ x.extractLsb' 0 8 = x := by
    apply BitVec.eq_of_getLsbD_eq
    intro i hi
    rw [BitVec.getLsbD_append, BitVec.getLsbD_extractLsb', BitVec.getLsbD_extractLsb']
    by_cases h8 : i < 8
    · simp [h8]
    · have h1 : i - 8 < 8 := by omega
      have h2 : 8 + (i - 8) = i := by omega
      simp [h8, h1, h2]
  show Except.ok (Instr.compose y (x.extractLsb' 8 8 ++ x.extractLsb' 0 8)) = _
  rw [h]

theorem line (y : Byte) : Statement (.line y) := decode_word 0x17 0 0 y

theorem reqW (v : Bool) : Statement (.reqW v) := by
  cases v
  · exact decode_word 0x20 0 0 0
  · exact decode_word 0x20 0 0 1

theorem modeW (v : Bool) : Statement (.modeW v) := by
  cases v
  · exact decode_word 0x21 0 0 0
  · exact decode_word 0x21 0 0 1

theorem ifW (v : Bool) : Statement (.ifW v) := by
  cases v
  · exact decode_word 0x22 0 0 0
  · exact decode_word 0x22 0 0 1

theorem outR : Statement .outR := decode_word 0x23 0 0 0

theorem tick : Statement .tick := decode_word 0x24 0 0 0

end Sys2Proof.Laws.RoundTrip
end

