-- ==== Sys2Proof/Laws/Scaler.lean ====
section
/-!
SUPPORT. The stages of the scaler assume nothing of `SCALE_FN` beyond being a function of the byte (spec/40_scaler.md
R137, R138).
-/

namespace Sys2Proof.Machine

/-- Truncation leaves an integer alone. -/
theorem truncToZero_natCast (n : Nat) : truncToZero (n : Rat) = n := by
  unfold truncToZero
  have h : ¬ ((n : Rat) < 0) := by simp
  rw [if_neg h]
  rfl

/-- Stages that realise a given table of steps: the byte is carried by the control voltage and the table sits in the
log-fit curve. -/
def stagesFor (f : Byte → U32) : ScalerParams where
  vr1 := fun _ => 0
  vr2 := fun _ => 0
  cext := fun _ => 0
  cref := 0
  cextLow := 0
  pixclk := 1
  xScale := 1
  cv := fun x _ _ => (x.toNat : Rat) / 52
  seg1 := fun _ => 0
  seg2 := fun _ => 0
  seg3 := fun _ => 0
  logfit := fun v => ((f (BitVec.ofNat 8 (v * 52).floor.toNat)).toNat : Rat) / 2 ^ 24
  ratio := fun _ _ => 1

theorem clampVolts_of_mem {v : Rat} (h0 : 0 ≤ v) (h5 : v ≤ 5) : clampVolts v = v := by
  unfold clampVolts
  rw [max_eq_right h0, min_eq_right h5]

theorem toStep_stagesFor (f : Byte → U32) (b : Board) (x : Byte) :
    toStep (stagesFor f) (frequency (stagesFor f) b x) = f x := by
  have hx : x.toNat < 256 := x.isLt
  have hq : ((x.toNat : Rat)) ≤ 255 := by exact_mod_cast Nat.le_of_lt_succ hx
  have hc : clampVolts ((x.toNat : Rat) / 52) = (x.toNat : Rat) / 52 :=
    clampVolts_of_mem (by positivity) (by linarith)
  have hf : ((x.toNat : Rat) / 52 * 52).floor.toNat = x.toNat := by
    have : (x.toNat : Rat) / 52 * 52 = (x.toNat : Rat) := by field_simp
    rw [this]
    rfl
  have hfreq : frequency (stagesFor f) b x = ((f x).toNat : Rat) / 2 ^ 24 := by
    simp only [frequency, curve, stagesFor, hc, lt_irrefl, if_false, hf, mul_one, BitVec.ofNat_toNat,
      BitVec.setWidth_eq]
  have hstep : ((f x).toNat : Rat) / 2 ^ 24 / (1 * (((1 : ℕ+) : Nat) : Rat)) * 2 ^ 24 = ((f x).toNat : Rat) := by
    simp
  unfold toStep
  rw [hfreq]
  show BitVec.ofInt 32 (truncToZero (((f x).toNat : Rat) / 2 ^ 24 / (1 * (((1 : ℕ+) : Nat) : Rat)) * 2 ^ 24)) = f x
  rw [hstep, truncToZero_natCast]
  simp

end Sys2Proof.Machine
end

