-- ==== Sys2Proof/Tests/Slice0.lean ====
section
/-!
SUPPORT. The model's own tests.  Expected values are the vectors of spec/95_test_vectors.md (their names in the test's
comment), under its test configurations TC-T, TC-S and TC-K; the witnesses show that every statement's hypotheses can be
met.
-/

namespace Sys2Proof.Tests

open Sys2Proof.Machine

/-! ### The test configurations (95_test_vectors.md 2) -/

/-- The stand-in scaler `c << 16`, as a log-fit curve of a control voltage of `c / 52` volts. -/
def testScaler : ScalerParams where
  vr1 := fun _ => 0
  vr2 := fun _ => 0
  cext := fun _ => 0
  cref := 0
  cextLow := 0
  pixclk := 1
  xScale := 1
  cv := fun c _ _ => (c.toNat : Rat) / 52
  seg1 := fun _ => 0
  seg2 := fun _ => 0
  seg3 := fun _ => 0
  logfit := fun v => v * 52 / 256
  ratio := fun _ _ => 1

/-- Plane `p` of a sample word, all eight lanes. -/
def plane (w : U32) (p : Nat) : Byte := w.extractLsb' (8 * p) 8

/-- A stage that reads a table of zeros. -/
def zeroStage : Stage := ⟨fun _ _ => 0, fun _ => 0⟩

/-- The compositor stand-in of TC-T; on BuckRogers four distinguishable colour sources. -/
def testCompositor : CompositorParams where
  fgReset := fun x => x == 0x200
  areaSum := fun _ _ _ => 0
  areaSelect := fun _ _ _ _ _ => 0
  areaLookup := fun _ _ _ _ _ => false
  area5Lookup := fun _ _ _ _ => false
  ext := fun _ _ _ => ⟨0, false, 0⟩
  chain := fun _ => ⟨zeroStage, zeroStage, none, none⟩
  priorityMask := fun _ g => g.spr.plbmask
  turboPix := fun g _ =>
    (BitVec.ofBool (plane g.spr.sprbits 3 != 0) ++ (BitVec.ofBool (plane g.spr.sprbits 2 != 0) ++
      (BitVec.ofBool (plane g.spr.sprbits 1 != 0) ++ BitVec.ofBool (plane g.spr.sprbits 0 != 0)))).setWidth 16
  turboColl := fun g _ => plane g.spr.sprbits 0 ||| plane g.spr.sprbits 1 ||| plane g.spr.sprbits 2 |||
    plane g.spr.sprbits 3
  subrocPix := fun _ _ _ => 0
  chgSelects := fun g _ => match g.ext with
    | some e => e.chg == 1
    | none => false
  fgColour := fun _ _ => 1
  muxSelects := fun _ _ nib _ => nib != 0
  spriteColour := fun _ _ _ _ => 2
  starColour := fun _ _ => 3
  backgroundColour := fun _ _ => 4

/-- The parameters all test configurations share, with the table image and the ROM image given. -/
def testParams (b : Board) (rowadv rom : Nat → Byte) : OpenParams where
  board := b
  scaler := testScaler
  rowadvTable := rowadv
  sprRom := rom
  endSubroc3d := fun n => ⟨n == 0xF, n != 0 && n != 0xF⟩
  endBuckRogers := fun _ => ⟨false, false⟩
  compositor := testCompositor
  palBits := fun _ => 4
  cselCount := fun _ => 1
  columnCount := 8
  tileRatio := fun _ => 1
  yFirst := 0x10
  yLast := 0x11
  heFn := fun _ _ => 0
  tStart := 50000
  tStep := 10000
  pack5Mask := fun _ => 0xFF
  digitalMap := fun _ _ _ _ _ _ _ => 0
  buttons := some fun _ => 0xA5C3
  axis := some fun _ ch => #v[0x12, 0x34, 0x56, 0x78][ch]
  tile := fun _ _ _ => 0

/-- The table and ROM entries of vectors A2a and E2. -/
def tcT : Config :=
  defaults (testParams .turbo (fun i => if i = 0x100 then 0xFB else 0xFF)
    (fun i => if i = 0x0088 then 0x3A else if i = 0x0089 then 0x5C else 0x00))

/-- The table entry of vector A4. -/
def tcT4 : Config := defaults (testParams .turbo (fun i => if i = 0 then 0x00 else 0xFF) (fun _ => 0x00))

/-- TC-T without colour-select registers and without columns: both counts at 0, which 00_scope.md R6 allows. -/
def tcT0 : Config := { tcT with cselCount := fun _ => 0, columnCount := 0 }

/-- TC-T with two output pixels to a tile pixel and a tile source that answers the column it is asked for. -/
def tcT2 : Config := { tcT with tileRatio := fun _ => 2, tile := fun _ _ col => col + 1 }

/-- TC-S with the ROM entries of vector E8. -/
def tcS : Config :=
  defaults (testParams .subroc3d (fun _ => 0xFF) (fun i => if i = 0x0100 then 0x1F else if i = 0x0101 then 0x23 else 0))

def tcB : Config := defaults (testParams .buckRogers (fun _ => 0xFF) (fun _ => 0x00))

/-- TC-K with both callbacks unbound (vector K4). -/
def tcK4 : Config :=
  defaults { testParams .turbo (fun _ => 0xFF) (fun _ => 0) with buttons := none, axis := none }

/-- All slots parked but slot `s` (and `s + 8` through a second call): the eight bytes of a slot. -/
def loadSlot (v : Video) (s : Fin 16) (b : Vector Byte 8) : Video := { v with spr := v.spr.set s.val b }

def parked : Video := { Video.reset with spr := Vector.replicate 16 #v[0xFF, 0, 0, 0, 0, 0, 0, 0] }

/-- The set-up of vector A2a. -/
def setA2a : Video := loadSlot parked 0 #v[0x0F, 0x20, 0x80, 0x0A, 0x10, 0x00, 0x00, 0x01]

/-- The set-up of vector A4. -/
def setA4 : Video :=
  loadSlot (loadSlot parked 1 #v[0x1F, 0x30, 0x20, 0x00, 0x08, 0x00, 0x00, 0x10]) 9
    #v[0x1F, 0x28, 0x60, 0x01, 0x02, 0x00, 0x00, 0x30]

/-- Level 0 live with given entries. -/
def liveLevel (x : Level) : Video := { (parked.setLevel 0 x) with ve := 0x01, lst := 0x01 }

/-! ### The command word (95_test_vectors.md 7) -/

theorem test_decode_plain : decode 0x00000000 = .ok .nop ∧ decode 0x01000000 = .ok .reset ∧
    decode 0x15000000 = .ok .sample ∧ decode 0x23000000 = .ok .outR ∧ decode 0x24000000 = .ok .tick := by decide

theorem test_decode_video : decode 0x10030640 = .ok (.sprW 3 6 0x40) ∧ decode 0x100F00FF = .ok (.sprW 15 0 0xFF) ∧
    decode 0x11000007 = .ok (.cselW 0 0x07) ∧ decode 0x12000080 = .ok (.scale 0x80) ∧
    decode 0x13000010 = .ok (.prep 0x10) ∧ decode 0x14000006 = .ok (.hstart 0x06) ∧
    decode 0x16100002 = .ok (.compose 0x10 2) ∧ decode 0x16050108 = .ok (.compose 5 0x108) ∧
    decode 0x17000010 = .ok (.line 0x10) := by decide

theorem test_decode_lines : decode 0x20000000 = .ok (.reqW false) ∧ decode 0x20000001 = .ok (.reqW true) ∧
    decode 0x21000000 = .ok (.modeW false) ∧ decode 0x22000001 = .ok (.ifW true) := by decide

theorem test_decode_refused : decode 0x02000000 = .error .noSuchOp ∧ decode 0x10100000 = .error .slotAbove15 ∧
    decode 0x10000800 = .error .byteIndexAbove7 ∧ decode 0x13010010 = .error .fieldNotZero ∧
    decode 0x20000002 = .error .levelNotABit ∧ decode 0x15000001 = .error .fieldNotZero ∧
    decode 0xFF000000 = .error .noSuchOp := by decide

theorem test_encode : encode (.sprW 3 6 0x40) = 0x10030640 ∧ encode (.compose 5 0x108) = 0x16050108 ∧
    encode (.modeW true) = 0x21000001 := by decide

/-- The table words of the host's numbering. -/
theorem test_table_word : decodeTableWord 32 0x10030640 = some (.sprW 3 6 0x40) ∧
    decodeTableWord 32 0x02000000 = none := by decide

/-- One ill-formed term for each check of WellFormed (95_test_vectors.md 7: `COMPOSE 0x10, 8` under `H_PIXELS = 8`). -/
theorem test_wellFormed_refuses : Instr.wellFormed tcT (.compose 0x10 8) = false ∧
    Instr.wellFormed tcT (.cselW 1 0x07) = false := by decide

/-- 95_test_vectors.md 7: `CSEL_W 0, 0x07` needs `CSEL_BYTES[BOARD] >= 1`; a row without columns accepts no COMPOSE. -/
theorem test_wellFormed_empty : Instr.wellFormed tcT0 (.cselW 0 0x07) = false ∧
    Instr.wellFormed tcT0 (.compose 0x10 0) = false := by decide

theorem test_wellFormed_accepts : Instr.wellFormed tcT (.compose 0x10 7) = true ∧
    Instr.wellFormed tcT (.cselW 0 0x07) = true := by decide

/-- A step after reset fetches and runs the placed word. -/
theorem test_withFetchWord : step (State.reset.withFetchWord 32 0x22000001) =
    .next (State.reset.setPad { Pad.reset with interface := true }) := rfl

/-! ### The video core -/

/-- A1: the enable ALU at the edges of its windows. -/
theorem test_alu : aluEnabled 0x0F 0x0F 0x20 = false ∧ aluEnabled 0x10 0x0F 0x20 = true ∧
    aluEnabled 0x1F 0x0F 0x20 = true ∧ aluEnabled 0x20 0x0F 0x20 = false ∧ aluEnabled 0x00 0x00 0x00 = false ∧
    aluEnabled 0xFE 0x00 0xFF = true ∧ aluEnabled 0xFF 0xFE 0xFF = false ∧ aluChi 0x80 0x80 0x7F = true ∧
    aluLow 0x1F 0x0F 0x20 = 0x0F := by decide

/-- A5. -/
theorem test_sprW : rowoff (sprWrite (sprWrite parked 3 6 0x40) 3 7 0x12) 3 = 0x1240 := by decide

/-- F2. -/
theorem test_cselW : (cselWrite parked 0 0x07).csel = [(0, 0x07)] ∧ (cselWrite (cselWrite parked 0 0x07) 0 0).csel = [] := by
  decide

/-- F1. -/
theorem test_scale : scaleFn tcT 0x00 = 0x00000000 ∧ scaleFn tcT 0x01 = 0x00010000 ∧ scaleFn tcT 0x80 = 0x00800000 ∧
    scaleFn tcT 0xFF = 0x00FF0000 := by decide +kernel

/-- A2a. -/
theorem test_prep : rowoff (prepVideo tcT 0x10 setA2a) 0 = 0x0110 ∧ (prepVideo tcT 0x10 setA2a).ve = 0x01 ∧
    (prepVideo tcT 0x10 setA2a).lst = 0x01 ∧
    (prepVideo tcT 0x10 setA2a).level 0 = ⟨0, false, 0x0110, 0, 0x00800000⟩ := by decide +kernel

/-- A4: both row offsets advance and the level holds slot 9. -/
theorem test_prep_alias : rowoff (prepVideo tcT4 0x20 setA4) 1 = 0x1008 ∧ rowoff (prepVideo tcT4 0x20 setA4) 9 = 0x3002 ∧
    (prepVideo tcT4 0x20 setA4).ve = 0x02 ∧
    (prepVideo tcT4 0x20 setA4).level 1 = ⟨0, false, 0x3002, 0, 0x00600000⟩ := by decide +kernel

/-- A6. -/
theorem test_hstart : (hstartVideo 0x06 { parked with ve := 0x05 }).lst = 0x04 ∧
    (hstartVideo 0xF8 { parked with ve := 0x05, lst := 0x05 }).lst = 0x05 := by decide

/-- E1. -/
theorem test_expand : latchWord 0xA 0 = 0x01000100 ∧ latchWord 0x6 5 = 0x00202000 ∧ latchWord 0xF 7 = 0x80808080 ∧
    latchWord 0xB 3 = 0x08000808 := by decide

/-- E2, second SAMPLE: the old latch is returned, the nibble at 0x0110 is latched. -/
theorem test_sample :
    sampleVideo tcT (liveLevel ⟨0, false, 0x0110, 0x00800000, 0x00800000⟩) =
      { liveLevel ⟨0x00000101, false, 0x0111, 0x00000000, 0x00800000⟩ with
        result := .sample ⟨0x00000000, 0x00⟩ } := by decide +kernel

/-- E8, second SAMPLE: two fetches, the first of which ends the sprite. -/
theorem test_sample_end :
    sampleVideo tcS (liveLevel ⟨0x00000001, true, 0x0201, 0x007F0000, 0x00FF0000⟩) =
      { liveLevel ⟨0x00000100, true, 0x0203, 0x007E0000, 0x00FF0000⟩ with
        lst := 0x00, result := .sample ⟨0x00000001, 0x01⟩ } := by decide +kernel

/-- F3, column 2. -/
theorem test_compose :
    (compose tcT 0x10 2 (liveLevel ⟨0x00000101, false, 0x0111, 0, 0x00800000⟩)).2 = ⟨0x3, 0x01⟩ ∧
    (compose tcT 0x10 2 (liveLevel ⟨0x00000101, false, 0x0111, 0, 0x00800000⟩)).1.outbuf = [(0x100002, 0x3)] := by
  decide +kernel

/-- 95_test_vectors.md 7: CSEL_W without registers and `COMPOSE 0x10, 8` under TC-T are refused. -/
theorem test_range_refused : cselWUnder tcT0 0 0x07 State.reset = .refused .cselIndexOutOfRange ∧
    composeUnder tcT 0x10 8 State.reset = .refused .columnOutOfRange ∧
    composeUnder tcT0 0x10 0 State.reset = .refused .columnOutOfRange := ⟨rfl, rfl, rfl⟩

/-- R213: with two output pixels to a tile pixel the delay of 8 tile pixels is 16 columns. -/
theorem test_foreground_ratio : foreground tcT2 0 0 15 = 0 ∧ foreground tcT2 0 0 16 = 1 ∧ foreground tcT2 0 0 17 = 1 ∧
    foreground tcT2 0 0 18 = 2 := by decide

/-- F4. -/
theorem test_line :
    ((List.range 8).map fun x => pixelRead (lineVideo tcT 0x10 setA2a) 0x10 (BitVec.ofNat 16 x)) =
      [0, 0, 3, 3, 0xA, 0xA, 0, 0] ∧ (lineVideo tcT 0x10 setA2a).lst = 0x00 ∧
    rowoff (lineVideo tcT 0x10 setA2a) 0 = 0x0110 := by decide +kernel

/-! ### The controller -/

/-- K1: the rows that tell the button masks and the axis order apart. -/
theorem test_pack : pack tcT ⟨0xA5C3, 0x12, 0x34, 0x56, 0x78⟩ = #v[0xC3, 0x13, 0x57, 0x24, 0x68, 0xA5] ∧
    pack tcT ⟨0xFCFF, 0xFF, 0x00, 0xF0, 0x0F⟩ = #v[0xF3, 0xF0, 0xF0, 0xF0, 0x0F, 0xFC] ∧
    pack tcT ⟨0x01FF, 0x80, 0x80, 0x80, 0x80⟩ = #v[0xF7, 0x88, 0x88, 0x00, 0x00, 0x01] ∧
    pack tcT ⟨0x5A0C, 0xDE, 0xAD, 0xBE, 0xEF⟩ = #v[0x08, 0xDA, 0xBE, 0xED, 0xEF, 0x5A] := by decide +kernel

/-- The state K2 gives after the falling edge. -/
def captured : Pad :=
  { Pad.reset with
    req := false, data := #v[0xC3, 0x13, 0x57, 0x24, 0x68, 0xA5], tpend := true, tcount := 0, tdue := 50000, calls := 5 }

/-- K2, the edge. -/
theorem test_reqW : reqWrite tcT false Pad.reset = captured := by decide +kernel

/-- K4: unbound callbacks. -/
theorem test_reqW_unbound : (reqWrite tcK4 false Pad.reset).data = #v[0xFF, 0, 0, 0, 0, 0xFF] := by decide +kernel

/-- K7: to digital mode during a shift. -/
theorem test_modeW : modeWrite false { captured with out := 0x33, tcount := 5 } =
    { captured with mode := false, tpend := false, tcount := 5, out := 0x2F } := by decide

/-- K8, the store alone. -/
theorem test_ifW : interfaceWrite true captured = { captured with interface := true } := rfl

/-- R254: after reset OUT_R returns 0x2F. -/
theorem test_outR : (outRead tcT Pad.reset).result = some 0x2F := by decide

/-- K2, counts 0 and 1. -/
theorem test_tick : (tick tcT captured).out = 0x3F ∧
    (tick tcT { captured with out := 0x3F, tcount := 1 }).out = 0x1C ∧
    (tick tcT { captured with out := 0x3F, tcount := 1 }).tcount = 2 := by decide

/-- K3, counts 1 and 21, and K2's stop. -/
theorem test_tick_interface :
    (tick tcT { captured with interface := true, out := 0x3F, tcount := 1 }).out = 0x13 ∧
    (tick tcT { captured with interface := true, out := 0x36, tcount := 21 }).out = 0x15 ∧
    (tick tcT { captured with out := 0x38, tcount := 21 }).out = 0x1A ∧
    (tick tcT { captured with out := 0x38, tcount := 21 }).tpend = false := by decide

theorem test_reset : resetPad { captured with mode := false, interface := true, out := 0x1C, tcount := 7 } =
    { Pad.reset with tdue := 50000, calls := 5 } := by decide

theorem test_nop : exec .nop State.reset = .next State.reset := rfl

/-- 42_sprite_sampler.md R194, vector E9: `PRIO(0x21) = 5`, lane 5 = 6. -/
theorem test_priority : prio 0x21 = some 5 ∧ prio 0x00 = none ∧ lane 0x01202001 5 = 0x6 ∧ lane 0x01202001 0 = 0x9 := by
  decide

/-- 30_encoding.md R113. -/
theorem test_pseudo : Pseudo.expansion tcT .frame = [.line 0x10, .line 0x11] ∧
    Pseudo.expansion tcT .strobe = [.reqW false, .reqW true] ∧
    scriptLine (.compose 5 0x108) = ("COMPOSE", [5, 0x108]) := by decide

/-! ### Witnesses: the hypotheses of every statement can be met -/

/-- A state with one live level, in its lane, with a step of one unit. -/
def oneLive : State :=
  State.reset.setVideo (liveLevel ⟨latchWord 0xA 0, false, 0x7FFF, 0, unit config.board⟩)

/-- A state with a pending TICK. -/
def pending (n : Fin 22) : State := State.reset.setPad { captured with tcount := n }

theorem witness_EncodeOfDecodeIsTheWord : decode 0x16050108 = .ok (.compose 5 0x108) := by decide

theorem witness_DecoderAcceptsExactlyTheTableRows : decode 0x100F07FF = .ok (.sprW 15 7 0xFF) ∧
    ∃ r ∈ opcodeRows, r.matchesWord 0x100F07FF = true := by decide

theorem witness_StepRunsTheDecodedCommand :
    (State.reset.withFetchWord 32 0x13000010).cmds = [0x13000010] ∧ decode 0x13000010 = .ok (.prep 0x10) := by decide

theorem witness_StepRefusesAReservedWord :
    (State.reset.withFetchWord 32 0x02000000).cmds = [0x02000000] ∧ decode 0x02000000 = .error .noSuchOp := by decide

theorem witness_StepWithoutCommandsDeliversTickOrIdles :
    (pending 0).cmds = [] ∧ (pending 0).pad.tpend = true ∧ State.reset.cmds = [] ∧ State.reset.pad.tpend = false := by
  decide

theorem witness_IssuedOperationsRunInOrder : State.reset.cmds = [] := rfl

/-- Every operation is accepted in some state; for CSEL_W and COMPOSE, whose bounds are OPEN, under TC-T. -/
theorem witness_OperationsCompleteExactlyWhenAccepted :
    (∀ i ∈ ([.nop, .reset, .sprW 15 7 0xFF, .scale 0x80, .prep 0x10, .hstart 0x06, .sample] ++
      [.line 0x10, .reqW false, .modeW false, .ifW true, .outR, .tick] : List Instr), accepted i (pending 0) = true) ∧
    Instr.wellFormed tcT (.cselW 0 0x07) = true ∧ Instr.wellFormed tcT (.compose 0x10 7) = true := by
  refine ⟨?_, rfl, rfl⟩
  intro i hi
  simp only [List.cons_append, List.nil_append, List.mem_cons, List.not_mem_nil, or_false] at hi
  rcases hi with rfl | rfl | rfl | rfl | rfl | rfl | rfl | rfl | rfl | rfl | rfl | rfl | rfl <;> rfl

theorem witness_AgentsShareNoState : Instr.agent (.hstart 1) = .video ∧ Instr.agent (.ifW true) = .controller ∧
    (∃ t, exec (.hstart 1) State.reset = .next t) ∧ ∃ t, exec (.ifW true) State.reset = .next t :=
  ⟨rfl, rfl, ⟨_, rfl⟩, ⟨_, rfl⟩⟩

theorem witness_VideoAndControllerOperationsCommute : Instr.agent (.prep 1) = .video ∧ Instr.agent .tick = .controller ∧
    (∃ t, exec (.prep 1) (pending 21) = .next t) ∧ ∃ u, exec .tick (pending 21) = .next u :=
  ⟨rfl, rfl, ⟨_, rfl⟩, ⟨_, rfl⟩⟩

/-- At the edges of the windows: both slots of level 1 enabled, the lower one alone, neither. -/
theorem witness_PrepLeavesTheLastEnabledSlotInALevel :
    inWindow setA4 (highSlot 1) 0x20 ∧ inWindow setA4 (highSlot 1) 0x27 ∧
    (¬ inWindow setA4 (highSlot 1) 0x28 ∧ inWindow setA4 (lowSlot 1) 0x28) ∧
    (¬ inWindow setA4 (highSlot 1) 0x30 ∧ ¬ inWindow setA4 (lowSlot 1) 0x30) := by decide

theorem witness_ClampedVoltagesGiveEqualSteps :
    let p : ScalerParams := { testScaler with cv := fun c _ _ => if c.toNat < 128 then -1 else 5 }
    (5 ≤ p.cv 0x80 (p.vr1 .turbo) (p.vr2 .turbo) ∧ 5 ≤ p.cv 0xFF (p.vr1 .turbo) (p.vr2 .turbo)) ∧
      (p.cv 0x00 (p.vr1 .turbo) (p.vr2 .turbo) ≤ 0 ∧ p.cv 0x7F (p.vr1 .turbo) (p.vr2 .turbo) ≤ 0) := by
  decide +kernel

theorem witness_SampleReturnsTheLatchedPixels :
    ∀ l, levelBit oneLive.video.lst l = true → (oneLive.video.level l).latched &&& ~~~laneMask l = 0 := by decide

/-- Exactly one unit, at the last offset that moves up. -/
theorem witness_SampleFetchReadsTheNextNibble : levelBit oneLive.video.lst 0 = true ∧
    (unit config.board).toNat ≤ (oneLive.video.level 0).frac.toNat + (oneLive.video.level 0).step.toNat ∧
    (oneLive.video.level 0).frac.toNat + (oneLive.video.level 0).step.toNat < 2 * (unit config.board).toNat := by
  have h := (unit_bounds config.board).1
  refine ⟨rfl, ?_, ?_⟩
  · show (unit config.board).toNat ≤ 0 + (unit config.board).toNat
    omega
  · show 0 + (unit config.board).toNat < 2 * (unit config.board).toNat
    omega

theorem witness_SampleFetchesOncePerWholeUnit : levelBit oneLive.video.lst 0 = true := rfl

theorem witness_SampleBelowOneUnitFetchesNothing :
    let s := State.reset.setVideo (liveLevel ⟨0, false, 0, 0, 0⟩)
    levelBit s.video.lst 0 = true ∧
      (s.video.level 0).frac.toNat + (s.video.level 0).step.toNat < (unit config.board).toNat := by
  have h := (unit_bounds config.board).1
  refine ⟨rfl, ?_⟩
  show 0 < _
  omega

theorem witness_SampleLeavesEverythingElse : levelBit oneLive.video.lst 7 = false ∧
    levelBit (sample tcT (liveLevel ⟨0, false, 0, 0, 0⟩)).1.lst 0 = true := by decide +kernel

/-- The two clauses meet at 0x7FFF and 0x8000 (E6). -/
theorem witness_OffsetMovesByItsHighBit : (0x7FFF : U16).toNat < 32768 ∧ 32768 ≤ (0x8000 : U16).toNat ∧
    nextOffset 0x7FFF = 0x8000 ∧ nextOffset 0x8000 = 0x7FFF := by decide

/-- The bound is OPEN, so the hypothesis is met by the machine of given parameters: under TC-T the operation completes. -/
theorem witness_CselWriteStoresOneByte :
    (0 : Byte).toNat < tcT.cselBytes ∧ Memory.wf State.reset.video.csel ∧
    cselWUnder tcT 0 0x07 State.reset = .next (State.reset.setVideo (cselWrite State.reset.video 0 0x07)) :=
  ⟨by decide, ⟨List.Pairwise.nil, nofun⟩, rfl⟩

/-- As above, at the last column of TC-T. -/
theorem witness_ComposeSamplesOnceAndWritesOnePixel :
    (7 : U16).toNat < tcT.hPixels ∧ Memory.wf State.reset.video.outbuf ∧
    composeUnder tcT 0x10 7 State.reset = .next (State.reset.setVideo (composeVideo tcT 0x10 7 State.reset.video)) :=
  ⟨by decide, ⟨List.Pairwise.nil, nofun⟩, rfl⟩

theorem witness_ComposeFnMeetsItsContract : tcS.board ≠ .turbo ∧ tcT.board = .turbo := by decide

/-- Gathered inputs for the cascade. -/
def cascadeInput (chg : Nat) (star : Bool) (spr : SampleOut) : GatherIn :=
  ⟨0, 0, 0, 0, spr, [], some ⟨chg, star, 0⟩⟩

/-- One input for each branch of the cascade: the foreground, the sprite on level 7, a selected level with an empty
nibble, and no selected level. -/
theorem witness_BuckRogersCascadeIsFirstMatch :
    let k := tcB.compositor
    tcB.board = .buckRogers ∧
    k.chgSelects (cascadeInput 1 false ⟨0, 0⟩) [] = true ∧
    (k.chgSelects (cascadeInput 0 false ⟨0x80, 0x80⟩) [] = false ∧
      prio (k.priorityMask .buckRogers (cascadeInput 0 false ⟨0x80, 0x80⟩)) = some 7 ∧
      k.muxSelects (cascadeInput 0 false ⟨0x80, 0x80⟩) 7 (lane 0x80 7) [] = true) ∧
    (prio (k.priorityMask .buckRogers (cascadeInput 0 true ⟨0, 0x80⟩)) = some 7 ∧
      k.muxSelects (cascadeInput 0 true ⟨0, 0x80⟩) 7 (lane 0 7) [] = false) ∧
    prio (k.priorityMask .buckRogers (cascadeInput 0 false ⟨0, 0⟩)) = none := by decide

theorem test_cascade : (composeFn tcB (cascadeInput 1 true ⟨0x80, 0x80⟩)).pix = 1 ∧
    (composeFn tcB (cascadeInput 0 true ⟨0x80, 0x80⟩)).pix = 2 ∧
    (composeFn tcB (cascadeInput 0 true ⟨0, 0x80⟩)).pix = 3 ∧
    (composeFn tcB (cascadeInput 0 false ⟨0, 0⟩)).pix = 4 := by decide

/-- Tile columns 7 and 8, at ratios 1 and 2, and one column inside the reset window. -/
theorem witness_ForegroundIsDelayedOnTurboOnly : tcT.board = .turbo ∧ tileColumn tcT 7 < 8 ∧ 8 ≤ tileColumn tcT 8 ∧
    tileColumn tcT2 15 < 8 ∧ 8 ≤ tileColumn tcT2 16 ∧ tcT.compositor.fgReset 8 = false ∧
    tcT.compositor.fgReset 0x200 = true ∧ tcS.board ≠ .turbo := by decide

theorem witness_LineWritesItsOwnRowOnly : Memory.wf State.reset.video.outbuf ∧ (0x11 : Byte) ≠ 0x10 :=
  ⟨⟨List.Pairwise.nil, nofun⟩, by decide⟩

/-- Two states that differ in the masks, the levels and the output buffer. -/
theorem witness_LinePixelsDoNotDependOnStaleState :
    let s := State.reset.setVideo { parked with outbuf := [(0x100000, 5)] }
    oneLive.video.spr = s.video.spr ∧ oneLive.video.csel = s.video.csel ∧ oneLive.video.tileCalls = s.video.tileCalls ∧
      Memory.wf oneLive.video.outbuf ∧ Memory.wf s.video.outbuf ∧ oneLive.video.lst ≠ s.video.lst :=
  ⟨rfl, rfl, rfl, ⟨List.Pairwise.nil, nofun⟩, by decide, by decide⟩

theorem witness_FallingEdgeCapturesAndSchedules : State.reset.pad.req = true ∧ State.reset.pad.mode = true ∧
    (State.reset.setPad { captured with req := true, tcount := 9 }).pad.mode = true := by decide

theorem witness_OtherEdgesOnlyRecordTheLevel :
    (State.reset.setPad { Pad.reset with mode := false }).pad.mode = false := rfl

theorem witness_UnboundCallbacksAnswerTheDefaults : tcK4.buttons = none ∧ tcK4.axis = none := ⟨rfl, rfl⟩

theorem witness_ModeSwitchCancelsOnlyTowardsDigital : (pending 5).pad.mode = true ∧
    (State.reset.setPad { Pad.reset with mode := false }).pad.mode = false := by decide

theorem witness_EvenTickTogglesTheLine :
    (pending 0).pad.tpend = true ∧ (pending 0).pad.tcount.val % 2 = 0 ∧ (pending 20).pad.tcount.val % 2 = 0 := by decide

/-- The last count that reschedules and the one that stops. -/
theorem witness_OddTickPresentsANibble : (pending 19).pad.tpend = true ∧ (pending 19).pad.tcount.val % 2 = 1 ∧
    (pending 19).pad.tcount.val < 21 ∧ (pending 21).pad.tcount.val = 21 := by decide

theorem witness_InterfaceSwapsNibblePairs : nibbleIndex 1 true = 1 ∧ nibbleIndex 19 true = 8 ∧ nibbleIndex 21 true = 11 ∧
    nibbleIndex 21 false = 10 := by decide

theorem witness_OutReadReturnsRegisterOrDigitalMap : State.reset.pad.mode = true ∧
    (State.reset.setPad { Pad.reset with mode := false }).pad.mode = false := by decide

theorem witness_AnalogReadExposesElevenNibbles : State.reset.cmds = [] ∧ State.reset.pad.req = true ∧
    State.reset.pad.mode = true ∧ State.reset.pad.out = 0x2F ∧ ∃ s0, exec (.reqW false) State.reset = .next s0 :=
  ⟨rfl, rfl, rfl, rfl, _, rfl⟩

theorem witness_UndisturbedShiftStopsAfterCount21 : (pending 21).cmds = [] ∧ (pending 21).pad.tpend = true ∧
    (pending 0).pad.tpend = true := by decide

/-- A state with a live level and a pending TICK meets the invariant, and has a step. -/
theorem witness_StepKeepsTheInvariant :
    (oneLive.setPad captured).Inv ∧ ∃ t, step (oneLive.setPad captured) = .next t := by
  have hu := (unit_bounds config.board).1
  refine ⟨⟨⟨⟨List.Pairwise.nil, nofun⟩, nofun, ⟨List.Pairwise.nil, nofun⟩, nofun, nofun, by decide, ?_⟩,
    ⟨by decide, nofun⟩⟩, _, rfl⟩
  intro l hl
  have h0 : ∀ l, levelBit 0x01 l = true → l = 0 := by decide
  obtain rfl := h0 l hl
  refine ⟨by decide, ?_, fun _ => rfl⟩
  show 0 < (unit config.board).toNat
  omega

end Sys2Proof.Tests
end

section
/-!
Proofs for spec/00_scope.md: the step and its queue (R12, log 1), and the state each agent owns (R13).
-/

namespace Sys2Proof

/-- The decoder undoes the encoder: the per-operation lemmas of Laws/RoundTrip together. -/
@[simp] theorem decode_encode (i : Instr) : decode (encode i) = .ok i := by
  cases i with
  | nop => exact Laws.RoundTrip.nop
  | reset => exact Laws.RoundTrip.reset
  | sprW s k v => exact Laws.RoundTrip.sprW s k v
  | cselW i v => exact Laws.RoundTrip.cselW i v
  | scale b => exact Laws.RoundTrip.scale b
  | prep y => exact Laws.RoundTrip.prep y
  | hstart m => exact Laws.RoundTrip.hstart m
  | sample => exact Laws.RoundTrip.sample
  | compose y x => exact Laws.RoundTrip.compose y x
  | line y => exact Laws.RoundTrip.line y
  | reqW v => exact Laws.RoundTrip.reqW v
  | modeW v => exact Laws.RoundTrip.modeW v
  | ifW v => exact Laws.RoundTrip.ifW v
  | outR => exact Laws.RoundTrip.outR
  | tick => exact Laws.RoundTrip.tick

end Sys2Proof

namespace Sys2Proof.Machine

theorem fetchCommand_of_cmds_cons {s : State} {w : Command} {rest : List Command} (hs : s.cmds = w :: rest) :
    fetchCommand s = some (w, { s with cmds := rest }) := by
  simp only [fetchCommand, hs]

theorem step_of_decode_ok {s : State} {w : Command} {rest : List Command} {i : Instr} (hs : s.cmds = w :: rest)
    (hw : decode w = .ok i) : step s = exec i { s with cmds := rest } := by
  simp only [step, fetchCommand_of_cmds_cons hs, hw]

/-- No operation touches the queue: by `exec_cmds` at the queue the state already has. -/
theorem cmds_of_exec_next {i : Instr} {s t : State} (h : exec i s = .next t) : t.cmds = s.cmds := by
  have hq := exec_cmds i s s.cmds
  rw [h] at hq
  have ht : t = { t with cmds := s.cmds } := Host.Outcome.next.inj hq
  exact (congrArg State.cmds ht :)

theorem pad_of_exec_next {i : Instr} {s t : State} (hi : i.agent = .video) (h : exec i s = .next t) :
    t.pad = s.pad := by
  obtain ⟨f, hf⟩ | ⟨r, hr⟩ := exec_video i hi
  · obtain rfl := Host.Outcome.next.inj ((hf s).symm.trans h)
    rfl
  · cases (hr s).symm.trans h

theorem video_of_exec_next {i : Instr} {s t : State} (hi : i.agent = .controller) (h : exec i s = .next t) :
    t.video = s.video := by
  obtain ⟨g, f, r, hf⟩ := exec_controller i hi
  rw [hf] at h
  split at h
  · obtain rfl := Host.Outcome.next.inj h
    rfl
  · cases h

/-! ### Operations issued into an empty queue -/

@[simp] theorem issue_nil (s : State) : s.issue [] = s := by
  simp only [State.issue, List.map_nil, List.append_nil]

theorem cmds_issue {s : State} (hs : s.cmds = []) (ops : List Instr) : (s.issue ops).cmds = ops.map encode := by
  simp only [State.issue, hs, List.nil_append]

/-- The first step after an issue is the first operation, with the words of the others still queued. -/
theorem step_issue_cons {s : State} (hs : s.cmds = []) (i : Instr) (ops : List Instr) :
    step (s.issue (i :: ops)) = exec i { s with cmds := ops.map encode } :=
  step_of_decode_ok (cmds_issue hs (i :: ops)) (decode_encode i)

theorem step_issue_cons_of_next {s t : State} (hs : s.cmds = []) {i : Instr} (ops : List Instr)
    (h : exec i s = .next t) : step (s.issue (i :: ops)) = .next (t.issue ops) := by
  have ht : t.cmds = [] := (cmds_of_exec_next h).trans hs
  rw [step_issue_cons hs, exec_cmds, h]
  simp only [State.issue, ht, List.nil_append]

theorem step_issue_cons_of_refused {s : State} (hs : s.cmds = []) {i : Instr} (ops : List Instr) {r : Refusal}
    (h : exec i s = .refused r) : step (s.issue (i :: ops)) = .refused r := by
  rw [step_issue_cons hs, exec_cmds, h]

theorem run_succ_of_refused {k : Nat} {s : State} {r : Refusal} (h : step s = .refused r) :
    core.run (k + 1) s = .refused r := by
  have hcore : core.step s = .refused r := h
  simp only [Host.Core.run, hcore]

theorem execAll_cons_of_next {i : Instr} {s t : State} (rest : List Instr) (h : exec i s = .next t) :
    execAll (i :: rest) s = execAll rest t := by
  simp only [execAll, h]

theorem execAll_cons_of_refused {i : Instr} {s : State} (rest : List Instr) {r : Refusal}
    (h : exec i s = .refused r) : execAll (i :: rest) s = .refused r := by
  simp only [execAll, h]

/-- By induction on the operations: a completed one leaves the queue to the rest, a refused one ends both runs. -/
theorem run_issue (ops : List Instr) {s : State} (hs : s.cmds = []) :
    core.run ops.length (s.issue ops) = execAll ops s := by
  induction ops generalizing s with
  | nil => exact congrArg Host.Outcome.next (issue_nil s)
  | cons i rest ih =>
    cases h : exec i s with
    | next t =>
      have hrun := run_succ_of_next (k := rest.length) (step_issue_cons_of_next hs rest h)
      have ht : t.cmds = [] := (cmds_of_exec_next h).trans hs
      exact hrun.trans ((ih ht).trans (execAll_cons_of_next rest h).symm)
    | fault r => cases r
    | refused r =>
      have hrun := run_succ_of_refused (k := rest.length) (step_issue_cons_of_refused hs rest h)
      exact hrun.trans (execAll_cons_of_refused rest h).symm

/-- Settles O6, by induction on the operations issued. -/
theorem issuedOperationsRunInOrder : Obligations.IssuedOperationsRunInOrder :=
  fun ops _ hs => run_issue ops hs

/-- Settles O5: the fetch takes the head of the queue, and the decoder's answer selects the operation. -/
theorem stepRunsTheDecodedCommand : Obligations.StepRunsTheDecodedCommand :=
  fun _ _ _ _ hs hw => step_of_decode_ok hs hw

/-- Settles O11, from what an operation of each agent can do (`exec_video`, `exec_controller`). -/
theorem agentsShareNoState : Obligations.AgentsShareNoState :=
  fun _ _ _ h => ⟨cmds_of_exec_next h, fun hi => pad_of_exec_next hi h, fun hi => video_of_exec_next hi h⟩

end Sys2Proof.Machine
end

section
/-!
Proofs for spec/10_state.md: the values after reset (R43), and the invariant, which reset meets and every step keeps
(R31).
-/

namespace Sys2Proof.Machine

/-! ### What a step can do -/

theorem step_of_cmds_nil {s : State} (hs : s.cmds = []) : step s = idleStep s := by
  simp only [step, fetchCommand, hs]

theorem step_of_decode_error {s : State} {w : Command} {rest : List Command} {why : Reject} (hs : s.cmds = w :: rest)
    (hw : decode w = .error why) : step s = .refused (.reservedWord why) := by
  simp only [step, fetchCommand_of_cmds_cons hs, hw]

/-- A completed idle step delivered the pending TICK, or there was none and the state stayed (60_exceptions.md R291,
R292; log 15). -/
theorem idleStep_cases {s t : State} (h : idleStep s = .next t) :
    (s.pad.tpend = true ∧ exec .tick s = .next t) ∨ (s.pad.tpend = false ∧ t = s) := by
  unfold idleStep at h
  split at h
  next hp => exact .inl ⟨hp, h⟩
  next hp => exact .inr ⟨Bool.eq_false_iff.2 hp, (Host.Outcome.next.inj h).symm⟩

/-- Everything a completed step can have been: the first queued command, decoded and run; or, with none queued, the
pending TICK; or nothing (00_scope.md R12; log 15). -/
theorem step_cases {s t : State} (h : step s = .next t) :
    (∃ w rest i, s.cmds = w :: rest ∧ decode w = .ok i ∧ exec i { s with cmds := rest } = .next t) ∨
    (s.cmds = [] ∧ s.pad.tpend = true ∧ exec .tick s = .next t) ∨
    (s.cmds = [] ∧ s.pad.tpend = false ∧ t = s) := by
  cases hs : s.cmds with
  | nil =>
    rw [step_of_cmds_nil hs] at h
    obtain ⟨hp, ht⟩ | ⟨hp, ht⟩ := idleStep_cases h
    · exact .inr (.inl ⟨rfl, hp, ht⟩)
    · exact .inr (.inr ⟨rfl, hp, ht⟩)
  | cons w rest =>
    cases hw : decode w with
    | ok i =>
      rw [step_of_decode_ok hs hw] at h
      exact .inl ⟨w, rest, i, rfl, hw, h⟩
    | error why => cases (step_of_decode_error hs hw).symm.trans h

/-! ### The invariant under the writes of the two halves of the state -/

theorem State.Inv.setVideo {s : State} {v : Video} (h : s.Inv) (hv : VideoInv config v) : (s.setVideo v).Inv :=
  ⟨hv, h.pad⟩

theorem State.Inv.setPad {s : State} {p : Pad} (h : s.Inv) (hp : PadInv p) : (s.setPad p).Inv :=
  ⟨h.video, hp⟩

/-- The queue is no part of the invariant. -/
theorem State.Inv.setCmds {s : State} (h : s.Inv) (q : List Command) : { s with cmds := q : State }.Inv :=
  ⟨h.video, h.pad⟩

theorem State.Inv.of_next {u t : State} (hu : u.Inv) (h : (.next u : Host.Outcome State Fault Refusal) = .next t) :
    t.Inv :=
  Host.Outcome.next.inj h ▸ hu

/-- An operation refused outside its guard need only keep the invariant where the guard holds. -/
theorem State.Inv.of_guarded {p : Prop} [Decidable p] {u t : State} {r : Refusal} (hu : p → u.Inv)
    (h : (if p then .next u else .refused r : Host.Outcome State Fault Refusal) = .next t) : t.Inv := by
  split at h
  next hp => exact (hu hp).of_next h
  next => cases h

/-- Every completed operation keeps the invariant: each writes one half of the state (RESET both), and that half's
invariant is kept by Laws/Invariant or Laws/Controller. -/
theorem State.Inv.exec {s t : State} (hs : s.Inv) (i : Instr) (h : exec i s = .next t) : t.Inv := by
  have hc := config_turboPlbFree
  cases i with
  | nop => exact hs.of_next h
  | reset => exact ((hs.setVideo hs.video.resetVideo).setPad (PadInv.resetPad s.pad)).of_next h
  | sprW slot k x => exact (hs.setVideo (hs.video.sprWrite slot k x)).of_next h
  | cselW i x => exact of_guarded (fun hi => hs.setVideo (hs.video.cselWrite i.toNat x hi)) h
  | scale b => exact (hs.setVideo (hs.video.ports _ _)).of_next h
  | prep y => exact (hs.setVideo (hs.video.prep y)).of_next h
  | hstart m => exact (hs.setVideo (hs.video.hstart m)).of_next h
  | sample => exact (hs.setVideo ((hs.video.sample hc).ports _ _)).of_next h
  | compose y x => exact of_guarded (fun hx => hs.setVideo ((hs.video.compose hc y x hx).ports _ _)) h
  | line y => exact (hs.setVideo (hs.video.line hc y)).of_next h
  | reqW v => exact (hs.setPad (hs.pad.reqWrite config v)).of_next h
  | modeW v => exact (hs.setPad (hs.pad.modeWrite v)).of_next h
  | ifW v => exact (hs.setPad (hs.pad.interfaceWrite v)).of_next h
  | outR => exact (hs.setPad (hs.pad.outRead config)).of_next h
  | tick => exact of_guarded (fun hp => hs.setPad (hs.pad.tick config hp)) h

/-- Settles O60, by the three things a completed step can have been (`step_cases`). -/
theorem stepKeepsTheInvariant : Obligations.StepKeepsTheInvariant := by
  intro s t hs h
  obtain ⟨w, rest, i, -, -, hi⟩ | ⟨-, -, htick⟩ | ⟨-, -, rfl⟩ := step_cases h
  · exact (hs.setCmds rest).exec i hi
  · exact hs.exec .tick htick
  · exact hs

/-! ### Reset -/

/-- No level is enabled after reset, and both memories are empty. -/
theorem VideoInv.reset (c : Config) : VideoInv c Video.reset where
  cselWf := ⟨List.Pairwise.nil, nofun⟩
  cselInRange := nofun
  outbufWf := ⟨List.Pairwise.nil, nofun⟩
  outbufInRange := nofun
  outbufPalette := nofun
  liveEnabled := BitVec.zero_and
  enabledLevels := fun l hl => absurd ((levelBit_zero l).symm.trans hl) Bool.false_ne_true

/-- RESET leaves the controller of the reset state as it is, so what it leaves meets the invariant. -/
theorem PadInv.reset : PadInv Pad.reset := PadInv.resetPad Pad.reset

/-- Settles O59: both halves of the reset state meet their invariants. -/
theorem resetMeetsTheInvariant : Obligations.ResetMeetsTheInvariant := ⟨VideoInv.reset config, PadInv.reset⟩

/-- Settles O13: each value is the one R43's table gives. -/
theorem resetStateHasTheSpecsValues : Obligations.ResetStateHasTheSpecsValues :=
  ⟨rfl, rfl, rfl, rfl, rfl, fun n => Vector.getElem_replicate n.isLt, rfl, rfl, rfl⟩

end Sys2Proof.Machine
end

section
/-!
Proof for spec/20_memory.md: the byte order of a sprite slot's two words (R66).
-/

namespace Sys2Proof.Machine

/-- SPR_W always completes, so a sequence goes on from the state with its byte written (41_sprite_prep.md R150). -/
theorem execAll_sprW_cons (a : Fin 16) (k : Fin 8) (x : Byte) (rest : List Instr) (s : State) :
    execAll (.sprW a k x :: rest) s = execAll rest (s.setVideo (sprWrite s.video a k x)) :=
  execAll_cons_of_next rest rfl

/-- Two SPR_W complete, the second on the register file the first left. -/
theorem execAll_sprW_pair (a a' : Fin 16) (k k' : Fin 8) (x x' : Byte) (s : State) :
    execAll [.sprW a k x, .sprW a' k' x'] s =
      .next (s.setVideo (sprWrite (sprWrite s.video a k x) a' k' x')) := by
  rw [execAll_sprW_cons, execAll_sprW_cons]
  rfl

/-- The row offset is byte 7 above byte 6. -/
theorem rowoff_sprWrite_bytes (v : Video) (a : Fin 16) (lo hi : Byte) :
    rowoff (sprWrite (sprWrite v a 6 lo) a 7 hi) a = hi ++ lo := by
  simp [rowoff, sprRead_sprWrite]

/-- The row increment is byte 5 above byte 4. -/
theorem rowinc_sprWrite_bytes (v : Video) (a : Fin 16) (lo hi : Byte) :
    rowinc (sprWrite (sprWrite v a 4 lo) a 5 hi) a = hi ++ lo := by
  simp [rowinc, sprRead_sprWrite]

/-- Settles O17: each pair of writes completes, and the word it leaves is read back from the two bytes written. -/
theorem slotWordsAreLowByteFirst : Obligations.SlotWordsAreLowByteFirst := fun a lo hi s =>
  ⟨⟨_, execAll_sprW_pair a a 6 7 lo hi s, rowoff_sprWrite_bytes s.video a lo hi⟩,
    ⟨_, execAll_sprW_pair a a 4 5 lo hi s, rowinc_sprWrite_bytes s.video a lo hi⟩⟩

end Sys2Proof.Machine
end

section
/-!
Proofs for spec/30_encoding.md: the command word and its table (R108 to R110), the table indices (R107), and what SLOT
expands to (R113).
-/

namespace Sys2Proof

/-! ### The two round trips -/

/-- Settles O1: the decoder undoes the encoder. -/
theorem decodeOfEncodeIsTheOperation : Obligations.DecodeOfEncodeIsTheOperation := decode_encode

/-- An operation read from a word encodes to that word: the operation map answers from the word's four fields. -/
theorem encode_of_decode_eq_ok {w : Command} {i : Instr} (h : decode w = .ok i) : encode i = w :=
  (decodeFields_eq_ok h).trans (word_fields w)

/-- Settles O2, from the operation map read from its answer. -/
theorem encodeOfDecodeIsTheWord : Obligations.EncodeOfDecodeIsTheWord := fun _ _ => encode_of_decode_eq_ok

/-! ### What a byte under a row's mask is -/

theorem and_0xFF (x : Byte) : x &&& 0xFF#8 = x := BitVec.and_allOnes

theorem and_0xFE_eq_zero_iff {x : Byte} : x &&& 0xFE#8 = 0#8 ↔ ∃ v, x = levelByte v := by
  revert x; decide

theorem and_0xF0_eq_zero_iff {x : Byte} : x &&& 0xF0#8 = 0#8 ↔ ∃ s : Fin 16, x = BitVec.ofNat 8 s.val := by
  revert x; decide

theorem and_0xF8_eq_zero_iff {x : Byte} : x &&& 0xF8#8 = 0#8 ↔ ∃ k : Fin 8, x = BitVec.ofNat 8 k.val := by
  revert x; decide

/-! ### The rows of the opcode table, by field -/

/-- A row that fixes the whole `op` field and, in `a`, `b` and `c`, asks the bits of a mask to be 0. -/
def fieldRow (m : String) (op ma mb mc : Byte) : OpcodeRow := ⟨m, word op 0 0 0, word 0xFF ma mb mc⟩

/-- A row without operands. -/
abbrev plainRow (m : String) (op : Byte) : OpcodeRow := fieldRow m op 0xFF 0xFF 0xFF

/-- A row whose only operand is the byte `c`. -/
abbrev byteRow (m : String) (op : Byte) : OpcodeRow := fieldRow m op 0xFF 0xFF 0x00

/-- A row whose only operand is the level `c[0]`. -/
abbrev levelRow (m : String) (op : Byte) : OpcodeRow := fieldRow m op 0xFF 0xFF 0xFE

/-- The `match` and `mask` words of the table are these rows (R109). -/
theorem opcodeRows_eq : opcodeRows =
    [plainRow "NOP" 0x00, plainRow "RESET" 0x01, fieldRow "SPR_W" 0x10 0xF0 0xF8 0x00,
     fieldRow "CSEL_W" 0x11 0xFF 0x00 0x00, byteRow "SCALE" 0x12, byteRow "PREP" 0x13, byteRow "HSTART" 0x14,
     plainRow "SAMPLE" 0x15, fieldRow "COMPOSE" 0x16 0x00 0x00 0x00, byteRow "LINE" 0x17, levelRow "REQ_W" 0x20,
     levelRow "MODE_W" 0x21, levelRow "IF_W" 0x22, plainRow "OUT_R" 0x23, plainRow "TICK" 0x24] := by
  decide

theorem matchesWord_fieldRow {m : String} {op ma mb mc : Byte} {w : Command} :
    (fieldRow m op ma mb mc).matchesWord w = true ↔
      ∃ a b c, word op a b c = w ∧ a &&& ma = 0 ∧ b &&& mb = 0 ∧ c &&& mc = 0 := by
  constructor
  · intro h
    rw [← word_fields w, fieldRow, matchesWord_word] at h
    obtain ⟨hop, ha, hb, hc⟩ := h
    obtain rfl := (and_0xFF _).symm.trans hop
    exact ⟨aField w, bField w, cField w, word_fields w, ha, hb, hc⟩
  · rintro ⟨a, b, c, rfl, ha, hb, hc⟩
    exact (matchesWord_word ..).2 ⟨and_0xFF op, ha, hb, hc⟩

/-! ### The operations each row reads -/

/-- The row `r` reads the operations `f x`: it matches their words and no others, and carries their mnemonic. -/
structure OpcodeRow.Reads {α : Type} (r : OpcodeRow) (f : α → Instr) : Prop where
  matchesWord_iff : ∀ w, r.matchesWord w = true ↔ ∃ x, encode (f x) = w
  mnemonic_eq : ∀ x, (f x).mnemonic = r.mnemonic

section
variable {α : Type} {r : OpcodeRow} {f : α → Instr}

/-- A word matched by a row that reads operations decodes to one of them, since the decoder undoes the encoder. -/
theorem OpcodeRow.Reads.decodes (h : r.Reads f) {w : Command} (hw : r.matchesWord w = true) :
    ∃ i, decode w = .ok i ∧ i.mnemonic = r.mnemonic := by
  obtain ⟨x, rfl⟩ := (h.matchesWord_iff w).1 hw
  exact ⟨f x, decode_encode (f x), h.mnemonic_eq x⟩

theorem OpcodeRow.Reads.matches_encode (h : r.Reads f) (hr : r ∈ opcodeRows) (x : α) :
    ∃ r ∈ opcodeRows, r.matchesWord (encode (f x)) = true ∧ r.mnemonic = (f x).mnemonic :=
  ⟨r, hr, (h.matchesWord_iff _).2 ⟨x, rfl⟩, (h.mnemonic_eq x).symm⟩

end

theorem plainRow_reads {m : String} {op : Byte} (i : Instr) (hi : encode i = word op 0 0 0 ∧ i.mnemonic = m) :
    (plainRow m op).Reads fun _ : Unit => i where
  matchesWord_iff w := by simp [matchesWord_fieldRow, and_0xFF, hi.1]
  mnemonic_eq _ := hi.2

theorem byteRow_reads {m : String} {op : Byte} (f : Byte → Instr)
    (hf : ∀ x, encode (f x) = word op 0 0 x ∧ (f x).mnemonic = m) : (byteRow m op).Reads f where
  matchesWord_iff w := by simp [matchesWord_fieldRow, and_0xFF, (hf _).1]
  mnemonic_eq x := (hf x).2

theorem levelRow_reads {m : String} {op : Byte} (f : Bool → Instr)
    (hf : ∀ v, encode (f v) = word op 0 0 (levelByte v) ∧ (f v).mnemonic = m) : (levelRow m op).Reads f where
  matchesWord_iff w := by
    rw [matchesWord_fieldRow]
    constructor
    · rintro ⟨a, b, c, rfl, ha, hb, hc⟩
      obtain rfl := (and_0xFF a).symm.trans ha
      obtain rfl := (and_0xFF b).symm.trans hb
      obtain ⟨v, rfl⟩ := and_0xFE_eq_zero_iff.1 hc
      exact ⟨v, (hf v).1⟩
    · rintro ⟨v, rfl⟩
      exact ⟨0, 0, levelByte v, (hf v).1.symm, BitVec.zero_and, BitVec.zero_and, and_0xFE_eq_zero_iff.2 ⟨v, rfl⟩⟩
  mnemonic_eq v := (hf v).2

theorem sprWRow_reads : (fieldRow "SPR_W" 0x10 0xF0 0xF8 0x00).Reads fun p : Fin 16 × Fin 8 × Byte =>
    .sprW p.1 p.2.1 p.2.2 where
  matchesWord_iff w := by
    rw [matchesWord_fieldRow]
    constructor
    · rintro ⟨a, b, c, rfl, ha, hb, -⟩
      obtain ⟨s, rfl⟩ := and_0xF0_eq_zero_iff.1 ha
      obtain ⟨k, rfl⟩ := and_0xF8_eq_zero_iff.1 hb
      exact ⟨(s, k, c), rfl⟩
    · rintro ⟨⟨s, k, x⟩, rfl⟩
      exact ⟨_, _, x, rfl, and_0xF0_eq_zero_iff.2 ⟨s, rfl⟩, and_0xF8_eq_zero_iff.2 ⟨k, rfl⟩, BitVec.and_zero⟩
  mnemonic_eq _ := rfl

theorem cselWRow_reads : (fieldRow "CSEL_W" 0x11 0xFF 0x00 0x00).Reads fun p : Byte × Byte => .cselW p.1 p.2 where
  matchesWord_iff w := by simp [matchesWord_fieldRow, and_0xFF, encode]
  mnemonic_eq _ := rfl

theorem composeRow_reads : (fieldRow "COMPOSE" 0x16 0x00 0x00 0x00).Reads fun p : Byte × U16 => .compose p.1 p.2 where
  matchesWord_iff w := by
    rw [matchesWord_fieldRow]
    constructor
    · rintro ⟨a, b, c, rfl, -⟩
      exact ⟨(a, b ++ c), encode_compose a b c⟩
    · rintro ⟨⟨y, x⟩, rfl⟩
      exact ⟨y, _, _, rfl, BitVec.and_zero, BitVec.and_zero, BitVec.and_zero⟩
  mnemonic_eq _ := rfl

/-- An operation's word is matched by the operation's own row, whatever its operands. -/
theorem exists_row_of_encode (i : Instr) :
    ∃ r ∈ opcodeRows, r.matchesWord (encode i) = true ∧ r.mnemonic = i.mnemonic := by
  cases i with
  | nop => exact (plainRow_reads .nop ⟨rfl, rfl⟩).matches_encode (by decide) ()
  | reset => exact (plainRow_reads .reset ⟨rfl, rfl⟩).matches_encode (by decide) ()
  | sprW s k x => exact sprWRow_reads.matches_encode (by decide) (s, k, x)
  | cselW i x => exact cselWRow_reads.matches_encode (by decide) (i, x)
  | scale b => exact (byteRow_reads .scale fun _ => ⟨rfl, rfl⟩).matches_encode (by decide) b
  | prep y => exact (byteRow_reads .prep fun _ => ⟨rfl, rfl⟩).matches_encode (by decide) y
  | hstart m => exact (byteRow_reads .hstart fun _ => ⟨rfl, rfl⟩).matches_encode (by decide) m
  | sample => exact (plainRow_reads .sample ⟨rfl, rfl⟩).matches_encode (by decide) ()
  | compose y x => exact composeRow_reads.matches_encode (by decide) (y, x)
  | line y => exact (byteRow_reads .line fun _ => ⟨rfl, rfl⟩).matches_encode (by decide) y
  | reqW v => exact (levelRow_reads .reqW fun _ => ⟨rfl, rfl⟩).matches_encode (by decide) v
  | modeW v => exact (levelRow_reads .modeW fun _ => ⟨rfl, rfl⟩).matches_encode (by decide) v
  | ifW v => exact (levelRow_reads .ifW fun _ => ⟨rfl, rfl⟩).matches_encode (by decide) v
  | outR => exact (plainRow_reads .outR ⟨rfl, rfl⟩).matches_encode (by decide) ()
  | tick => exact (plainRow_reads .tick ⟨rfl, rfl⟩).matches_encode (by decide) ()

/-- A word matched by a row of the table decodes to an operation of that row. -/
theorem exists_decode_of_matchesWord {w : Command} :
    ∀ r ∈ opcodeRows, r.matchesWord w = true → ∃ i, decode w = .ok i ∧ i.mnemonic = r.mnemonic := by
  simp only [opcodeRows_eq, List.forall_mem_cons, List.not_mem_nil, false_implies, implies_true, and_true]
  exact ⟨(plainRow_reads .nop ⟨rfl, rfl⟩).decodes, (plainRow_reads .reset ⟨rfl, rfl⟩).decodes,
    sprWRow_reads.decodes, cselWRow_reads.decodes, (byteRow_reads .scale fun _ => ⟨rfl, rfl⟩).decodes,
    (byteRow_reads .prep fun _ => ⟨rfl, rfl⟩).decodes, (byteRow_reads .hstart fun _ => ⟨rfl, rfl⟩).decodes,
    (plainRow_reads .sample ⟨rfl, rfl⟩).decodes, composeRow_reads.decodes,
    (byteRow_reads .line fun _ => ⟨rfl, rfl⟩).decodes, (levelRow_reads .reqW fun _ => ⟨rfl, rfl⟩).decodes,
    (levelRow_reads .modeW fun _ => ⟨rfl, rfl⟩).decodes, (levelRow_reads .ifW fun _ => ⟨rfl, rfl⟩).decodes,
    (plainRow_reads .outR ⟨rfl, rfl⟩).decodes, (plainRow_reads .tick ⟨rfl, rfl⟩).decodes⟩

/-- Settles O3: a word that decodes is its operation's own word, which its row matches; a matched word is the word of an
operation its row reads. -/
theorem decoderAcceptsExactlyTheTableRows : Obligations.DecoderAcceptsExactlyTheTableRows := by
  refine fun w => ⟨fun i h => ?_, exists_decode_of_matchesWord⟩
  obtain rfl := encode_of_decode_eq_ok h
  exact exists_row_of_encode i

end Sys2Proof

namespace Sys2Proof.Machine

/-! ### Table indices -/

theorem romIndex_lt (b : Board) (l : Fin 8) (o : U16) : romIndex b l o < 8 * 2 ^ pageShift b := by
  have hpage : (o.toNat / 2) % 2 ^ pageShift b < 2 ^ pageShift b := Nat.mod_lt _ (Nat.two_pow_pos _)
  calc romIndex b l o
      = l.val * 2 ^ pageShift b + (o.toNat / 2) % 2 ^ pageShift b := romIndex_eq b l o
    _ < (l.val + 1) * 2 ^ pageShift b := by rw [Nat.succ_mul]; exact Nat.add_lt_add_left hpage _
    _ ≤ 8 * 2 ^ pageShift b := Nat.mul_le_mul_right _ l.isLt

theorem rowadvIndex_lt (al ys : Byte) : rowadvIndex al ys < 512 := by
  have hal := al.isLt
  have hbit := (ys.getLsbD 3).toNat_le
  simp only [rowadvIndex]
  omega

/-- The nibbles of a shift are two to a byte of the buffer, so twelve nibbles are six bytes (20_memory.md R68). -/
theorem nibbleIndex_byte_lt (count : Fin nSteps) (interface : Bool) : (nibbleIndex count interface).val / 2 < 6 := by
  have h := (nibbleIndex count interface).isLt
  omega

/-- Settles O35, one table at a time: the sprite ROM, the row-advance table, the packed buffer. -/
theorem tableIndicesAreInRange : Obligations.TableIndicesAreInRange :=
  ⟨romIndex_lt, rowadvIndex_lt, nibbleIndex_byte_lt⟩

/-! ### Refusals -/

/-- Settles O7, from what a step does with a word that does not decode. -/
theorem stepRefusesAReservedWord : Obligations.StepRefusesAReservedWord :=
  fun _ _ _ _ hs hw => step_of_decode_error hs hw

/-- An operation refused outside its guard is refused exactly there. -/
theorem guarded_eq_refused_iff {p : Prop} [Decidable p] {t : State} {r : Refusal} :
    (if p then .next t else .refused r : Host.Outcome State Fault Refusal) = .refused r ↔ ¬p := by
  split
  next hp => exact iff_of_false nofun (not_not_intro hp)
  next hp => exact iff_of_true rfl hp

/-- Settles O10: each of the three is an operation with a guard, and the statement names where the guard fails. -/
theorem unacceptedOperationsAreRefusedByName : Obligations.UnacceptedOperationsAreRefusedByName := fun _ =>
  ⟨fun _ _ => guarded_eq_refused_iff.trans Nat.not_lt, fun _ _ => guarded_eq_refused_iff.trans Nat.not_lt,
    guarded_eq_refused_iff.trans Bool.eq_false_iff.symm⟩

/-! ### SLOT -/

/-- The video core with one slot loaded byte by byte, as SLOT does it: the last two bytes are the row offset's. -/
def loadedSlot (v : Video) (a : Fin 16) (row0 row1 xscale yscale : Byte) (inc off : U16) : Video :=
  setRowoff (sprWrite (sprWrite (sprWrite (sprWrite (sprWrite (sprWrite v a 0 row0) a 1 row1) a 2 xscale) a 3 yscale)
    a 4 (inc.extractLsb' 0 8)) a 5 (inc.extractLsb' 8 8)) a off

section
variable (v : Video) (a : Fin 16) (row0 row1 xscale yscale : Byte) (inc off : U16)

theorem execAll_slot_expansion (c : Config) (s : State) :
    execAll (Pseudo.expansion c (.slot a row0 row1 xscale yscale inc off)) s =
      .next (s.setVideo (loadedSlot s.video a row0 row1 xscale yscale inc off)) := by
  simp only [Pseudo.expansion, execAll_sprW_cons]
  rfl

theorem sprRead_loadedSlot_bytes :
    sprRead (loadedSlot v a row0 row1 xscale yscale inc off) a 0 = row0 ∧
    sprRead (loadedSlot v a row0 row1 xscale yscale inc off) a 1 = row1 ∧
    sprRead (loadedSlot v a row0 row1 xscale yscale inc off) a 2 = xscale ∧
    sprRead (loadedSlot v a row0 row1 xscale yscale inc off) a 3 = yscale := by
  simp [loadedSlot, sprRead_setRowoff, sprRead_sprWrite]

theorem rowinc_loadedSlot : rowinc (loadedSlot v a row0 row1 xscale yscale inc off) a = inc := by
  simpa [rowinc, loadedSlot, sprRead_setRowoff, sprRead_sprWrite] using halves_append inc

theorem rowoff_loadedSlot : rowoff (loadedSlot v a row0 row1 xscale yscale inc off) a = off := by
  rw [loadedSlot, rowoff_setRowoff, if_pos rfl]

theorem sprRead_loadedSlot_of_ne {a' : Fin 16} (h : a' ≠ a) (k : Fin 8) :
    sprRead (loadedSlot v a row0 row1 xscale yscale inc off) a' k = sprRead v a' k := by
  simp [loadedSlot, sprRead_setRowoff, sprRead_sprWrite, h]

/-- Loading a slot writes the register file alone. -/
theorem loadedSlot_eq_set_spr :
    loadedSlot v a row0 row1 xscale yscale inc off =
      { v with spr := (loadedSlot v a row0 row1 xscale yscale inc off).spr } := rfl

end

/-- Settles O18: the eight writes complete, and each part of the slot, and of the rest of the state, is read off what they
leave. -/
theorem slotPseudoOperationLoadsOneSlot : Obligations.SlotPseudoOperationLoadsOneSlot := by
  intro a row0 row1 xscale yscale inc off s
  obtain ⟨h0, h1, h2, h3⟩ := sprRead_loadedSlot_bytes s.video a row0 row1 xscale yscale inc off
  exact ⟨_, execAll_slot_expansion a row0 row1 xscale yscale inc off config s, h0, h1, h2, h3,
    rowinc_loadedSlot .., rowoff_loadedSlot .., fun _ k h => sprRead_loadedSlot_of_ne (h := h) (k := k) ..,
    congrArg s.setVideo (loadedSlot_eq_set_spr ..)⟩

end Sys2Proof.Machine
end

section
/-!
Proofs for spec/40_scaler.md: SCALE (R130, R137), the freedom of the stages (R138) and the clamp of the control voltage
(R132, R141).
-/

namespace Sys2Proof.Machine

/-- Settles O26: the stages built around a table (`stagesFor`) give that table back, whatever the board. -/
theorem scalerStagesRealiseEveryTable : Obligations.ScalerStagesRealiseEveryTable :=
  fun f => ⟨stagesFor f, toStep_stagesFor f⟩

/-! ### SCALE -/

theorem exec_scale (b : Byte) (s : State) : exec (.scale b) s = .next (s.setVideo (scaleVideo config b s.video)) := rfl

/-- Settles O25: SCALE installs `scaleVideo`, which is the video core with its result port set to the step. -/
theorem scaleReturnsTheStepAndWritesNothing : Obligations.ScaleReturnsTheStepAndWritesNothing :=
  fun b s => exec_scale b s

/-! ### The clamp -/

theorem clampVolts_of_five_le {v : Rat} (h : 5 ≤ v) : clampVolts v = 5 :=
  min_eq_left (le_max_of_le_right h)

theorem clampVolts_of_nonpos {v : Rat} (h : v ≤ 0) : clampVolts v = 0 := by
  rw [clampVolts, max_eq_left h, min_eq_right (by norm_num)]

/-- The byte reaches the oscillator through its clamped control voltage alone (R131 to R135). -/
theorem frequency_eq_of_clampVolts_eq {p : ScalerParams} {b : Board} {x x' : Byte}
    (h : clampVolts (p.cv x (p.vr1 b) (p.vr2 b)) = clampVolts (p.cv x' (p.vr1 b) (p.vr2 b))) :
    frequency p b x = frequency p b x' := by
  rw [frequency, frequency, h]

/-- Settles O27: at either end the two voltages clamp to the same value, 5 or 0 volts, so the frequencies agree. -/
theorem clampedVoltagesGiveEqualSteps : Obligations.ClampedVoltagesGiveEqualSteps := by
  intro p b x x' hends
  refine congrArg (toStep p) (frequency_eq_of_clampVolts_eq ?_)
  obtain ⟨hx, hx'⟩ | ⟨hx, hx'⟩ := hends
  · exact (clampVolts_of_five_le hx).trans (clampVolts_of_five_le hx').symm
  · exact (clampVolts_of_nonpos hx).trans (clampVolts_of_nonpos hx').symm

end Sys2Proof.Machine
end

section
/-!
Proofs for spec/41_sprite_prep.md: SPR_W (R150), the enable ALU (R153 to R155), what PREP leaves (R151 to R162) and HSTART
(R164).
-/

namespace Sys2Proof.Machine

/-! ### SPR_W -/

theorem exec_sprW (a : Fin 16) (k : Fin 8) (x : Byte) (s : State) :
    exec (.sprW a k x) s = .next (s.setVideo (sprWrite s.video a k x)) := rfl

/-- Settles O16: a read after a byte write sees it at its own place only, and the write keeps every other field. -/
theorem sprWriteStoresOneByte : Obligations.SprWriteStoresOneByte := fun a k x s =>
  ⟨_, exec_sprW a k x s, sprRead_sprWrite s.video a k x, sprWrite_ve .., sprWrite_lst .., sprWrite_levels ..,
    sprWrite_csel .., sprWrite_outbuf .., sprWrite_result .., sprWrite_tileCalls .., State.setVideo_pad ..,
    State.setVideo_cmds ..⟩

/-! ### The enable ALU -/

/-- Settles O19: the carry out of the first sum is one comparison, and the enable condition is two. -/
theorem enabledExactlyInsideTheWindow : Obligations.EnabledExactlyInsideTheWindow :=
  fun y row0 row1 => ⟨aluClo_iff y row0, aluEnabled_iff y row0 row1⟩

section
variable (y row0 row1 : Byte)

theorem aluFirst_le : aluFirst y row0 ≤ 510 := by
  have hy := y.isLt
  have h0 := (~~~row0).isLt
  unfold aluFirst
  omega

/-- The running sum is the first sum below the sum of the high bytes. -/
theorem aluSum_eq : aluSum y row0 row1 = aluFirst y row0 + 256 * (y.toNat + (~~~row1).toNat) := by
  rw [aluSum, Nat.mul_add, Nat.add_assoc]

theorem aluSum_le : aluSum y row0 row1 ≤ 131070 := by
  have hfirst := aluFirst_le y row0
  have hy := y.isLt
  have h1 := (~~~row1).isLt
  rw [aluSum_eq]
  omega

/-- The first sum has nine bits, so its bit 8 is all that it carries into the second byte. -/
theorem toNat_aluClo : (aluClo y row0).toNat = aluFirst y row0 / 256 := by
  have hfirst := aluFirst_le y row0
  rw [aluClo, Nat.toNat_testBit]
  omega

theorem aluSum_div : aluSum y row0 row1 / 256 = y.toNat + (~~~row1).toNat + (aluClo y row0).toNat := by
  rw [aluSum_eq, Nat.add_mul_div_left _ _ (by decide), toNat_aluClo, Nat.add_comm]

/-- `chi` is the carry out of the second byte, into which `clo` is carried (R153). -/
theorem aluChi_eq : aluChi y row0 row1 = (y.toNat + (~~~row1).toNat + (aluClo y row0).toNat).testBit 8 := by
  rw [← aluSum_div]
  exact (Nat.testBit_div_two_pow (n := 8) (i := 8) _).symm

end

/-- Settles O20, by the two bytes of the sum: the low one is `AL`, and carries `clo` into the one above. -/
theorem runningSumWidthsAndLowByte : Obligations.RunningSumWidthsAndLowByte := fun y row0 row1 =>
  ⟨aluFirst_le y row0, aluSum_le y row0 row1, aluChi_eq y row0 row1, aluLow_eq y row0 row1⟩

/-! ### PREP -/

theorem exec_prep (y : Byte) (s : State) : exec (.prep y) s = .next (s.setVideo (prepVideo config y s.video)) := rfl

section
variable {c : Config} {y : Byte} {v : Video} {a : Fin 16}

/-- A level is enabled by either of its slots (R151, R159). -/
theorem levelBit_prepVideo_ve_iff (l : Fin 8) :
    levelBit (prepVideo c y v).ve l = true ↔ inWindow v (lowSlot l) y ∨ inWindow v (highSlot l) y := by
  obtain ⟨-, -, hve, -⟩ := prepVideo_spec c y v
  rw [hve, Bool.or_eq_true, slotEnabled_iff, slotEnabled_iff]

/-- Where enabling a level makes it live, the two masks are rebuilt alike (R159). -/
theorem prepVideo_lst_eq_ve (hlive : c.liveOnEnable = true) : (prepVideo c y v).lst = (prepVideo c y v).ve := by
  obtain ⟨-, -, hve, hlst, -⟩ := prepVideo_spec c y v
  refine mask_ext fun l => ?_
  rw [hlst, hve, hlive, Bool.true_and]

theorem slotAfter_of_inWindow (h : inWindow v a y) : slotAfter c y v a = advanceRow c y v a :=
  if_pos ((slotEnabled_iff v a y).2 h)

theorem slotAfter_of_not_inWindow (h : ¬inWindow v a y) : slotAfter c y v a = v :=
  if_neg (mt (slotEnabled_iff v a y).1 h)

theorem rowoff_prepVideo : rowoff (prepVideo c y v) a = rowoff (slotAfter c y v a) a := by
  obtain ⟨hspr, -⟩ := prepVideo_spec c y v
  simp only [rowoff, hspr]

/-- A level reset by a slot has the row offset PREP leaves in the slot, and the step for an x-scale byte PREP does not
write (R159, R160). -/
theorem freshLevel_of_inWindow (h : inWindow v a y) :
    freshLevel c (advanceRow c y v a) a =
      ⟨0, false, rowoff (prepVideo c y v) a, 0, scaleFn c (sprRead v a 2)⟩ := by
  have hoff : rowoff (advanceRow c y v a) a = rowoff (prepVideo c y v) a := by
    rw [rowoff_prepVideo, slotAfter_of_inWindow h]
  have hscale : sprRead (advanceRow c y v a) a 2 = sprRead v a 2 :=
    sprRead_advanceRow c y v a a 2 (.inr (by decide))
  rw [freshLevel, hoff, hscale]

/-- The upper slot is processed after the lower one, so it has the last word (R152). -/
theorem prepVideo_level (l : Fin 8) :
    (prepVideo c y v).level l =
      if inWindow v (highSlot l) y then freshLevel c (advanceRow c y v (highSlot l)) (highSlot l)
      else if inWindow v (lowSlot l) y then freshLevel c (advanceRow c y v (lowSlot l)) (lowSlot l)
      else v.level l := by
  obtain ⟨-, hlevel, -⟩ := prepVideo_spec c y v
  simp only [hlevel, slotEnabled_iff]

/-- The row offset PREP leaves in a slot (R156 to R158, R161). -/
theorem rowoff_prepVideo_eq :
    rowoff (prepVideo c y v) a =
      if inWindow v a y ∧ rowAdvances c v a y = true then rowoff v a + rowinc v a else rowoff v a := by
  rw [rowoff_prepVideo]
  by_cases h : inWindow v a y
  · rw [slotAfter_of_inWindow h, rowoff_advanceRow]
    exact if_congr (and_iff_right h).symm rfl rfl
  · rw [slotAfter_of_not_inWindow h, if_neg (fun hadv => h hadv.1)]

/-- PREP writes bytes 6 and 7 of a slot at most (R158, R162). -/
theorem sprRead_prepVideo {k : Fin 8} (h6 : k ≠ 6) (h7 : k ≠ 7) :
    sprRead (prepVideo c y v) a k = sprRead v a k := by
  obtain ⟨hspr, -⟩ := prepVideo_spec c y v
  rw [hspr]
  by_cases h : inWindow v a y
  · rw [slotAfter_of_inWindow h]
    exact sprRead_advanceRow c y v a a k (.inr ⟨h6, h7⟩)
  · rw [slotAfter_of_not_inWindow h]

end

/-- A slot's row advances where the table bit at `AL = y - row0 - 1` is `ROWADV_ACTIVE`, which is 0 (R154, R156, R157;
log 8). -/
theorem rowAdvances_config_iff (v : Video) (a : Fin 16) (y : Byte) :
    rowAdvances config v a y = true ↔
      (config.rowadvTable ((y - sprRead v a 0 - 1).toNat + 256 * ((sprRead v a 3).getLsbD 3).toNat)).getLsbD
        ((sprRead v a 3).toNat % 8) = false := by
  have hactive : config.rowadvActive = false := rfl
  have hselect : ((sprRead v a 3).extractLsb' 0 3).toNat = (sprRead v a 3).toNat % 8 := by
    simp [BitVec.extractLsb'_toNat]
  rw [rowAdvances, hactive, beq_iff_eq, rowadvBit, rowadvIndex, aluLow_eq, hselect]

/-- Settles O21: `config` has `LIVE_ON_ENABLE` at the spec's default. -/
theorem prepRebuildsTheMasks : Obligations.PrepRebuildsTheMasks := fun y s =>
  ⟨_, exec_prep y s, levelBit_prepVideo_ve_iff, prepVideo_lst_eq_ve rfl⟩

/-- Settles O22, by the three branches of the level's value. -/
theorem prepLeavesTheLastEnabledSlotInALevel : Obligations.PrepLeavesTheLastEnabledSlotInALevel := by
  refine fun y s => ⟨_, exec_prep y s, fun l => ⟨fun hhigh => ?_, fun hhigh hlow => ?_, fun hhigh hlow => ?_⟩⟩
  · exact (prepVideo_level l).trans ((if_pos hhigh).trans (freshLevel_of_inWindow hhigh))
  · exact (prepVideo_level l).trans ((if_neg hhigh).trans ((if_pos hlow).trans (freshLevel_of_inWindow hlow)))
  · exact (prepVideo_level l).trans ((if_neg hhigh).trans (if_neg hlow))

/-- Settles O23: the row offsets by `rowoff_prepVideo_eq`, the other bytes and fields by what PREP keeps. -/
theorem prepAdvancesRowOffsetsAndNothingElse : Obligations.PrepAdvancesRowOffsetsAndNothingElse := by
  intro y s
  obtain ⟨-, -, -, -, hcsel, houtbuf, hresult, htiles⟩ := prepVideo_spec config y s.video
  refine ⟨_, exec_prep y s, fun a => ?_, fun _ _ => sprRead_prepVideo, hcsel, houtbuf, hresult, htiles, rfl, rfl⟩
  simp only [State.setVideo_video, rowoff_prepVideo_eq, rowAdvances_config_iff]

/-! ### HSTART -/

theorem exec_hstart (m : Byte) (s : State) : exec (.hstart m) s = .next (s.setVideo (hstartVideo m s.video)) := rfl

/-- Settles O24: HSTART installs `hstartVideo`, which writes `lst` alone. -/
theorem hstartMakesEnabledLevelsLive : Obligations.HstartMakesEnabledLevelsLive := fun m s =>
  ⟨_, exec_hstart m s, hstartVideo_lst .., hstartVideo_ve .., hstartVideo_spr .., hstartVideo_levels ..,
    hstartVideo_csel .., hstartVideo_outbuf .., hstartVideo_result .., hstartVideo_tileCalls ..,
    State.setVideo_pad .., State.setVideo_cmds ..⟩

end Sys2Proof.Machine
end

section
/-!
Proofs for spec/42_sprite_sampler.md: what SAMPLE returns (R182, R183, R190), a live level's turn (R184 to R192), what
SAMPLE leaves (R180, R195), the operands of a fetch (R186, R189) and the priority decode (R194).
-/

namespace Sys2Proof.Machine

/-! ### The operands of a fetch -/

/-- Settles O33, by the bits of a latched word. -/
theorem expansionPutsTheNibbleInItsLane : Obligations.ExpansionPutsTheNibbleInItsLane := latchWord_bit

theorem toNat_nextOffset_of_lt {o : U16} (h : o.toNat < 32768) : (nextOffset o).toNat = o.toNat + 1 := by
  rw [nextOffset_eq, if_pos h]
  bv_omega

theorem toNat_nextOffset_of_le {o : U16} (h : 32768 ≤ o.toNat) : (nextOffset o).toNat = o.toNat - 1 := by
  rw [nextOffset_eq, if_neg (Nat.not_lt.2 h)]
  bv_omega

/-- Settles O34: neither move crosses the end of the 16 bits, since each starts in the other half. -/
theorem offsetMovesByItsHighBit : Obligations.OffsetMovesByItsHighBit :=
  fun _ => ⟨toNat_nextOffset_of_lt, toNat_nextOffset_of_le⟩

/-! ### The priority decode -/

/-- The decode searches the levels from the highest down (R194). -/
theorem prio_eq_findRev? (p : Byte) : prio p = Fin.findRev? (levelBit p) := by
  have hdown : levelList.reverse = (List.finRange 8).map Fin.rev := by decide
  rw [prio, hdown, List.find?_map, ← Fin.map_rev_find?, Fin.find?_eq_find?_finRange]
  rfl

theorem prio_eq_none_iff (p : Byte) : prio p = none ↔ p = 0 := by
  rw [prio_eq_findRev?, Fin.findRev?_eq_none_iff]
  refine ⟨fun h => mask_ext fun l => (h l).trans (levelBit_zero l).symm, ?_⟩
  rintro rfl
  exact levelBit_zero

theorem prio_eq_some_iff (p : Byte) (m : Fin 8) :
    prio p = some m ↔ levelBit p m = true ∧ ∀ n, m < n → levelBit p n = false := by
  rw [prio_eq_findRev?, Fin.findRev?_eq_some_iff]

/-- Settles O42, by the library's facts about a search from the last index. -/
theorem priorityDecodeGivesTheHighestLevel : Obligations.PriorityDecodeGivesTheHighestLevel :=
  fun p => ⟨prio_eq_none_iff p, prio_eq_some_iff p⟩

/-! ### What SAMPLE installs -/

theorem exec_sample (s : State) : exec .sample s = .next (s.setVideo (sampleVideo config s.video)) := rfl

section
variable {c : Config} {v : Video} {l : Fin 8}

theorem sampleVideo_level_of_live (h : levelBit v.lst l = true) :
    (sampleVideo c v).level l = (sampleLevel c l (v.level l)).1 :=
  ((sample_spec c v).1 l).trans (if_pos h)

theorem sampleVideo_level_of_dead (h : levelBit v.lst l = false) : (sampleVideo c v).level l = v.level l :=
  ((sample_spec c v).1 l).trans (if_neg (Bool.eq_false_iff.1 h))

theorem levelBit_sampleVideo_lst (l : Fin 8) :
    levelBit (sampleVideo c v).lst l = (levelBit v.lst l && (sampleLevel c l (v.level l)).2) := by
  obtain ⟨-, hlst, -⟩ := sample_spec c v
  exact hlst l

theorem levelBit_sampleVideo_lst_of_live (h : levelBit v.lst l = true) :
    levelBit (sampleVideo c v).lst l = (sampleLevel c l (v.level l)).2 := by
  rw [levelBit_sampleVideo_lst, h, Bool.true_and]

/-! ### What SAMPLE returns -/

/-- The returned word is the OR of the live levels' latched words (R190). -/
theorem getLsbD_sprbits_iff (i : Nat) :
    (sample c v).2.sprbits.getLsbD i = true ↔
      ∃ l, levelBit v.lst l = true ∧ (v.level l).latched.getLsbD i = true := by
  obtain ⟨-, -, hbits, -⟩ := sample_spec c v
  simp [hbits, mem_levelList]

/-- Where every live level's latch is in its lane, no level but `l` reaches the bits of lane `l` (R183). -/
theorem getLsbD_sprbits_of_inLane
    (hlane : ∀ l, levelBit v.lst l = true → (v.level l).latched &&& ~~~laneMask l = 0) {i : Nat}
    (hi : i % 8 = l.val) :
    (sample c v).2.sprbits.getLsbD i = (levelBit v.lst l && (v.level l).latched.getLsbD i) := by
  rw [Bool.eq_iff_iff, getLsbD_sprbits_iff, Bool.and_eq_true]
  refine ⟨fun ⟨l', hlive, hbit⟩ => ?_, fun h => ⟨l, h⟩⟩
  suffices hl : l' = l from hl ▸ ⟨hlive, hbit⟩
  by_contra hne
  have hclear := inLane_bit (hlane l' hlive) i fun h => hne (Fin.ext (h.symm.trans hi))
  exact Bool.false_ne_true (hclear.symm.trans hbit)

theorem lane_sprbits (hlane : ∀ l, levelBit v.lst l = true → (v.level l).latched &&& ~~~laneMask l = 0) :
    lane (sample c v).2.sprbits l = if levelBit v.lst l then lane (v.level l).latched l else 0 := by
  have hbit (p : Fin 4) := getLsbD_sprbits_of_inLane (c := c) hlane (l := l) (i := 8 * p.val + l.val) (by omega)
  cases hlive : levelBit v.lst l with
  | true =>
    refine lane_ext fun p => ?_
    rw [hbit p, hlive, Bool.true_and]
  | false =>
    refine Eq.trans (lane_ext fun p => ?_) (lane_zero l)
    rw [hbit p, hlive, Bool.false_and, BitVec.ofNat_eq_ofNat, BitVec.getLsbD_zero]

end

/-- Settles O28: the bits by `sample_spec`, the lanes by `lane_sprbits`. -/
theorem sampleReturnsTheLatchedPixels : Obligations.SampleReturnsTheLatchedPixels := by
  intro s
  obtain ⟨-, -, -, hplb, -⟩ := sample_spec config s.video
  exact ⟨_, _, exec_sample s, rfl, getLsbD_sprbits_iff, hplb, fun hlane _ => lane_sprbits hlane⟩

/-! ### A live level's turn -/

section
variable {c : Config} {l : Fin 8} {x : Level}

/-- A sum below two units is below `2^32`, so the accumulator holds it. -/
theorem toNat_frac_add_step (h : x.frac.toNat + x.step.toNat < 2 * (unit c.board).toNat) :
    (x.frac + x.step).toNat = x.frac.toNat + x.step.toNat := by
  obtain ⟨-, hunit⟩ := unit_bounds c.board
  exact BitVec.toNat_add_of_lt (by omega)

/-- Below one unit the loop makes no fetch (R184, R192). -/
theorem sampleLevel_of_lt_unit (h : x.frac.toNat + x.step.toNat < (unit c.board).toNat) :
    sampleLevel c l x = ({ x with frac := x.frac + x.step }, true) := by
  have hfetches : (x.frac + x.step).toNat / (unit c.board).toNat = 0 := by
    rw [toNat_frac_add_step (c := c) (by omega)]
    exact Nat.div_eq_of_lt h
  rw [sampleLevel_eq, hfetches, Function.iterate_zero_apply]

/-- From one unit to below two the loop makes one fetch (R184). -/
theorem sampleLevel_of_one_unit (hle : (unit c.board).toNat ≤ x.frac.toNat + x.step.toNat)
    (hlt : x.frac.toNat + x.step.toNat < 2 * (unit c.board).toNat) :
    sampleLevel c l x = fetch c l ({ x with frac := x.frac + x.step }, true) := by
  have hfetches : (x.frac + x.step).toNat / (unit c.board).toNat = 1 := by
    rw [toNat_frac_add_step hlt]
    exact Nat.div_eq_of_lt_le (by omega) (by omega)
  rw [sampleLevel_eq, hfetches, Function.iterate_one]

end

/-- The nibble an offset selects in the level's page of the ROM (R185, 20_memory.md R67). -/
theorem romNibble_romIndex_eq (b : Board) (rom : Nat → Byte) (l : Fin 8) (o : U16) :
    romNibble (rom (romIndex b l o)) o =
      let byte := rom (l.val * 2 ^ pageShift b + (o.toNat / 2) % 2 ^ pageShift b)
      if o.toNat % 2 = 0 then byte.extractLsb' 4 4 else byte.extractLsb' 0 4 := by
  rw [romNibble_eq, romIndex_eq]

/-- Settles O29: a live level's turn is the iterated fetch of `sampleLevel_eq`. -/
theorem sampleFetchesOncePerWholeUnit : Obligations.SampleFetchesOncePerWholeUnit := by
  refine fun s => ⟨_, exec_sample s, fun l hlive => ?_⟩
  simp only [State.setVideo_video, sampleVideo_level_of_live hlive, levelBit_sampleVideo_lst_of_live hlive]
  exact ⟨congrArg Prod.fst (sampleLevel_eq ..), congrArg Prod.snd (sampleLevel_eq ..), sampleLevel_frac ..,
    sampleLevel_step ..⟩

/-- Settles O30: the turn is one fetch, whose nibble and offset are put in arithmetic. -/
theorem sampleFetchReadsTheNextNibble : Obligations.SampleFetchReadsTheNextNibble := by
  refine fun s l hlive hle hlt => ⟨_, exec_sample s, ?_⟩
  simp only [State.setVideo_video, sampleVideo_level_of_live hlive, levelBit_sampleVideo_lst_of_live hlive,
    sampleLevel_of_one_unit hle hlt, ← romNibble_romIndex_eq, ← nextOffset_eq]
  exact ⟨rfl, rfl⟩

/-- Settles O31, by the turn that makes no fetch. -/
theorem sampleBelowOneUnitFetchesNothing : Obligations.SampleBelowOneUnitFetchesNothing := by
  refine fun s l hlive hlt => ⟨_, exec_sample s, ?_⟩
  simp only [State.setVideo_video, sampleVideo_level_of_live hlive, levelBit_sampleVideo_lst_of_live hlive,
    sampleLevel_of_lt_unit hlt, and_self]

/-! ### What SAMPLE leaves -/

/-- Settles O32: the new live mask is the old one restricted, and the loop keeps the other fields. -/
theorem sampleLeavesEverythingElse : Obligations.SampleLeavesEverythingElse := by
  intro s
  obtain ⟨-, -, -, -, hspr, hve, hcsel, houtbuf, -, htiles⟩ := sample_spec config s.video
  refine ⟨_, exec_sample s, fun _ => sampleVideo_level_of_dead, fun l hl => ?_, hve, hspr, hcsel, houtbuf, htiles,
    rfl, rfl⟩
  rw [State.setVideo_video, levelBit_sampleVideo_lst, Bool.and_eq_true] at hl
  exact hl.1

end Sys2Proof.Machine
end

section
/-!
Proofs for spec/43_compositor.md: CSEL_W (R210), the gathered inputs (R211, R213, R214), COMPOSE and its function (R212,
R217 to R219), and LINE (R222, R224).
-/

namespace Sys2Proof.Machine

/-! ### CSEL_W -/

theorem exec_cselW_of_lt {i : Byte} (h : i.toNat < config.cselBytes) (x : Byte) (s : State) :
    exec (.cselW i x) s = .next (s.setVideo (cselWrite s.video i.toNat x)) := if_pos h

/-- Settles O36: a read after the write sees it at its own index only, and the write keeps every other field. -/
theorem cselWriteStoresOneByte : Obligations.CselWriteStoresOneByte := fun i x s hi hwf =>
  ⟨_, exec_cselW_of_lt hi x s, fun j => cselRead_cselWrite s.video i.toNat x j hwf, cselWrite_spr .., cselWrite_ve ..,
    cselWrite_lst .., cselWrite_levels .., cselWrite_outbuf .., cselWrite_result .., cselWrite_tileCalls ..,
    State.setVideo_pad .., State.setVideo_cmds ..⟩

/-! ### The gathered inputs -/

section
variable {c : Config} {n : Nat} {y : Byte} {x : U16}

theorem foreground_turbo_of_reset (hb : c.board = .turbo) (h : tileColumn c x < 8 ∨ c.compositor.fgReset x = true) :
    foreground c n y x = 0 := by
  simp only [foreground, hb]
  exact if_pos h

theorem foreground_turbo_of_delayed (hb : c.board = .turbo) (hcol : 8 ≤ tileColumn c x)
    (hreset : c.compositor.fgReset x = false) : foreground c n y x = c.tile n y (tileColumn c x - 8) := by
  simp only [foreground, hb]
  exact if_neg (not_or.2 ⟨Nat.not_lt.2 hcol, Bool.eq_false_iff.1 hreset⟩)

/-- The delay is 0 off Turbo. -/
theorem foreground_of_ne_turbo (hb : c.board ≠ .turbo) : foreground c n y x = c.tile n y (tileColumn c x) := by
  cases h : c.board with
  | turbo => exact absurd h hb
  | subroc3d => simp only [foreground, h]; rfl
  | buckRogers => simp only [foreground, h]; rfl

end

/-- Settles O41, by the board and, on Turbo, by whether the column is held in reset. -/
theorem foregroundIsDelayedOnTurboOnly : Obligations.ForegroundIsDelayedOnTurboOnly := fun _ _ _ _ =>
  ⟨foreground_turbo_of_reset, foreground_turbo_of_delayed, foreground_of_ne_turbo⟩

/-- Five bits side by side, the last one lowest. -/
theorem getLsbD_five_ofBool (b0 b1 b2 b3 b4 : Bool) :
    let w : BitVec 5 := BitVec.ofBool b4 ++
      (BitVec.ofBool b3 ++ (BitVec.ofBool b2 ++ (BitVec.ofBool b1 ++ BitVec.ofBool b0)))
    w.getLsbD 0 = b0 ∧ w.getLsbD 1 = b1 ∧ w.getLsbD 2 = b2 ∧ w.getLsbD 3 = b3 ∧ w.getLsbD 4 = b4 := by
  revert b0 b1 b2 b3 b4
  decide

theorem areaBits_bits (c : Config) (y : Byte) (x : U16) (csel : List Byte) :
    (∀ j : Fin 4, (areaBits c y x csel).getLsbD j.val = areaBit c y x csel j) ∧
      (areaBits c y x csel).getLsbD 4 = c.compositor.area5Lookup c.board y x csel := by
  obtain ⟨h0, h1, h2, h3, h4⟩ := getLsbD_five_ofBool (areaBit c y x csel 0) (areaBit c y x csel 1)
    (areaBit c y x csel 2) (areaBit c y x csel 3) (c.compositor.area5Lookup c.board y x csel)
  refine ⟨fun j => ?_, h4⟩
  match j with
  | 0 => exact h0
  | 1 => exact h1
  | 2 => exact h2
  | 3 => exact h3

/-- Settles O40: the gathered CSEL bytes are the copy by definition, and the road bits are read off one at a time. -/
theorem roadBitsComeFromFiveLookups : Obligations.RoadBitsComeFromFiveLookups := fun c v y x _ =>
  ⟨rfl, areaBits_bits c y x (cselCopy c v)⟩

/-! ### The compositor function -/

section
variable {c : Config} {g : GatherIn}

theorem composeFn_coll_of_ne_turbo (hb : c.board ≠ .turbo) : (composeFn c g).coll = 0 := by
  cases h : c.board with
  | turbo => exact absurd h hb
  | subroc3d => simp only [composeFn, h]
  | buckRogers => simp only [composeFn, h]

/-- The BuckRogers palette index is the cascade's, on the outputs of the board's chain (R219). -/
theorem composeFn_pix_buckRogers (hb : c.board = .buckRogers) :
    (composeFn c g).pix = limitPalette c (buckCascade c.compositor g (selectSprite c g)
      (chainOutputs (c.compositor.chain .buckRogers) g)) := by
  simp only [composeFn, hb]

theorem selectSprite_of_prio_eq_some {mux : Fin 8} (h : prio (c.compositor.priorityMask c.board g) = some mux) :
    selectSprite c g = some (mux, lane g.spr.sprbits mux) := by
  rw [selectSprite, h, Option.map_some]

theorem selectSprite_of_prio_eq_none (h : prio (c.compositor.priorityMask c.board g) = none) :
    selectSprite c g = none := by
  rw [selectSprite, h, Option.map_none]

end

/-- Settles O38, by the two halves of the contract. -/
theorem composeFnMeetsItsContract : Obligations.ComposeFnMeetsItsContract := fun c g =>
  ⟨composeFn_pix_lt c g, composeFn_coll_of_ne_turbo⟩

section
variable {k : CompositorParams} {g : GatherIn} {outs : List Byte}

theorem buckCascade_of_chg (sel : Option (Fin 8 × Nibble)) (h : k.chgSelects g outs = true) :
    buckCascade k g sel outs = k.fgColour g outs := if_pos h

theorem buckCascade_some (h : k.chgSelects g outs = false) (mux : Fin 8) (nib : Nibble) :
    buckCascade k g (some (mux, nib)) outs =
      if k.muxSelects g mux nib outs then k.spriteColour g mux nib outs else starOrBackground k g outs :=
  if_neg (Bool.eq_false_iff.1 h)

theorem buckCascade_none (h : k.chgSelects g outs = false) :
    buckCascade k g none outs = starOrBackground k g outs := if_neg (Bool.eq_false_iff.1 h)

theorem starOrBackground_of_ext {e : Ext} (h : g.ext = some e) :
    starOrBackground k g outs = if e.star then k.starColour g outs else k.backgroundColour g outs := by
  simp only [starOrBackground, starBit, h]

end

/-- Settles O39: the cascade at each of its conditions, the sprite's for a selected level and for none. -/
theorem buckRogersCascadeIsFirstMatch : Obligations.BuckRogersCascadeIsFirstMatch := by
  intro c g e hb hext
  dsimp only
  rw [composeFn_pix_buckRogers hb, ← hb]
  refine ⟨fun hchg => ?_, fun hchg mux hmux hsel => ?_, fun hchg hsel => ?_⟩
  · rw [buckCascade_of_chg _ hchg]
  · rw [selectSprite_of_prio_eq_some hmux, buckCascade_some hchg, if_pos hsel]
  · rw [← starOrBackground_of_ext hext]
    cases hmux : prio (c.compositor.priorityMask c.board g) with
    | none => rw [selectSprite_of_prio_eq_none hmux, buckCascade_none hchg]
    | some mux =>
      rw [selectSprite_of_prio_eq_some hmux, buckCascade_some hchg, if_neg (Bool.eq_false_iff.1 (hsel mux hmux))]

/-! ### COMPOSE -/

theorem exec_compose_of_lt (y : Byte) {x : U16} (h : x.toNat < config.hPixels) (s : State) :
    exec (.compose y x) s = .next (s.setVideo (composeVideo config y x s.video)) := if_pos h

theorem pixelRead_compose (c : Config) (y : Byte) (x : U16) {v : Video} (hwf : Memory.wf v.outbuf) (y' : Byte)
    (x' : U16) : pixelRead (compose c y x v).1 y' x' =
      if y' = y ∧ x' = x then composedPixel c y x v else pixelRead v y' x' := by
  simp only [pixelRead, compose_outbuf, Memory.read_write _ _ _ _ hwf, pixelKey_inj]

/-- Settles O37: the SAMPLE inside is the operation SAMPLE up to the result port, which the gather does not read. -/
theorem composeSamplesOnceAndWritesOnePixel : Obligations.ComposeSamplesOnceAndWritesOnePixel := fun y x s hx hwf =>
  ⟨_, _, _, exec_compose_of_lt y hx s, exec_sample s, rfl, rfl, pixelRead_compose config y x hwf, rfl, rfl,
    compose_ve config y x s.video, compose_spr config y x s.video, compose_csel config y x s.video,
    compose_tileCalls config y x s.video, rfl, rfl⟩

/-! ### LINE as a sequence of operations -/

theorem exec_line (y : Byte) (s : State) : exec (.line y) s = .next (s.setVideo (lineVideo config y s.video)) := rfl

/-- The video core with another result in its port (log 2). -/
def setResult (r : VideoResult) (v : Video) : Video := { v with result := r }

/-- One column of LINE run as the two operations HSTART and COMPOSE: COMPOSE returns its pixel. -/
def columnVideo (c : Config) (y : Byte) (v : Video) (x : Nat) : Video :=
  composeVideo c y (BitVec.ofNat 16 x) (hstartVideo (c.heFn y (BitVec.ofNat 16 x)) v)

/-- The two operations of one column of LINE (R224). -/
def columnOps (c : Config) (y : Byte) (x : Nat) : List Instr :=
  [.hstart (c.heFn y (BitVec.ofNat 16 x)), .compose y (BitVec.ofNat 16 x)]

section
variable (c : Config) (y : Byte) (r : VideoResult)

theorem sampleStep_setResult (p : Video × SampleOut) (l : Fin 8) :
    sampleStep c (Prod.map (setResult r) id p) l = Prod.map (setResult r) id (sampleStep c p l) := by
  have hlive : levelBit (Prod.map (setResult r) id p).1.lst l = levelBit p.1.lst l := rfl
  rw [sampleStep, sampleStep, hlive]
  cases levelBit p.1.lst l with
  | true => rfl
  | false => rfl

/-- SAMPLE neither reads nor writes the result port. -/
theorem sample_setResult (v : Video) : sample c (setResult r v) = Prod.map (setResult r) id (sample c v) := by
  rw [sample, sample, ← List.foldl_hom _ (sampleStep_setResult c r), Prod.map_apply, id]

theorem compose_setResult (x : U16) (v : Video) :
    compose c y x (setResult r v) = Prod.map (setResult r) id (compose c y x v) := by
  rw [compose, sample_setResult]
  rfl

/-- A column of LINE is the two operations of the column, but for the result port. -/
theorem lineColumn_setResult (v : Video) (x : Nat) :
    lineColumn c y (setResult r v) x = setResult r (columnVideo c y v x) :=
  congrArg Prod.fst (compose_setResult c y r _ (hstartVideo (c.heFn y (BitVec.ofNat 16 x)) v))

theorem setResult_result_prepVideo (v : Video) : setResult v.result (prepVideo c y v) = prepVideo c y v := by
  obtain ⟨-, -, -, -, -, -, hresult, -⟩ := prepVideo_spec c y v
  rw [← hresult]
  rfl

/-- LINE is PREP and then the two operations of each column, but for the result port (R224). -/
theorem lineVideo_eq_setResult (v : Video) :
    lineVideo c y v =
      setResult v.result ((List.range c.hPixels).foldl (columnVideo c y) (prepVideo c y v)) := by
  rw [lineVideo, ← List.foldl_hom (setResult v.result) (lineColumn_setResult c y v.result), setResult_result_prepVideo]

end

theorem toNat_column {c : Config} {x : Nat} (h : x < c.hPixels) : (BitVec.ofNat 16 x).toNat = x := by
  rw [BitVec.toNat_ofNat, Nat.mod_eq_of_lt (Nat.lt_of_lt_of_le h (hPixels_le c))]

/-- The operations of columns in range all complete, by induction on the columns. -/
theorem execAll_columnOps (y : Byte) (xs : List Nat) (hxs : ∀ x ∈ xs, x < config.hPixels) (s : State) :
    execAll (xs.flatMap (columnOps config y)) s =
      .next (s.setVideo (xs.foldl (columnVideo config y) s.video)) := by
  induction xs generalizing s with
  | nil => rfl
  | cons x xs ih =>
    obtain ⟨hx, hxs⟩ := List.forall_mem_cons.1 hxs
    have hcol : (BitVec.ofNat 16 x).toNat < config.hPixels := (toNat_column hx).symm ▸ hx
    rw [List.flatMap_cons, columnOps, List.cons_append, execAll_cons_of_next _ (exec_hstart _ s), List.cons_append,
      execAll_cons_of_next _ (exec_compose_of_lt y hcol _), List.nil_append, ih hxs]
    rfl

/-- Settles O43: the operations complete, and leave what LINE leaves but for the result port. -/
theorem lineIsPrepThenEveryColumn : Obligations.LineIsPrepThenEveryColumn := fun y s =>
  ⟨_, _, exec_line y s,
    (execAll_cons_of_next _ (exec_prep y s)).trans
      (execAll_columnOps y (List.range config.hPixels) (fun _ => List.mem_range.1) _),
    congrArg s.setVideo (lineVideo_eq_setResult config y s.video)⟩

/-! ### What LINE writes -/

section
variable {c : Config} {y : Byte}

/-- The pixel one column of LINE writes. -/
def columnPixel (c : Config) (y : Byte) (v : Video) (x : Nat) : U16 :=
  composedPixel c y (BitVec.ofNat 16 x) (hstartVideo (c.heFn y (BitVec.ofNat 16 x)) v)

theorem pixelRead_lineColumn {v : Video} (hwf : Memory.wf v.outbuf) (x : Nat) (y' : Byte) (x' : U16) :
    pixelRead (lineColumn c y v x) y' x' =
      if y' = y ∧ x' = BitVec.ofNat 16 x then columnPixel c y v x else pixelRead v y' x' :=
  pixelRead_compose c y _ (v := hstartVideo _ v) hwf y' x'

theorem lineColumn_outbuf_wf {v : Video} (hwf : Memory.wf v.outbuf) (x : Nat) :
    Memory.wf (lineColumn c y v x).outbuf := by
  rw [lineColumn, compose_outbuf]
  exact Memory.write_wf _ _ _ hwf

theorem prepVideo_outbuf (c : Config) (y : Byte) (v : Video) : (prepVideo c y v).outbuf = v.outbuf := by
  obtain ⟨-, -, -, -, -, houtbuf, -⟩ := prepVideo_spec c y v
  exact houtbuf

/-- What a row in progress has kept of the video core it began with. -/
structure RowFrame (c : Config) (y : Byte) (v w : Video) : Prop where
  outbufWf : Memory.wf w.outbuf
  otherPixels : ∀ y' x, y' ≠ y ∨ c.hPixels ≤ x.toNat → pixelRead w y' x = pixelRead v y' x
  csel : w.csel = v.csel
  result : w.result = v.result

theorem RowFrame.prepVideo {v : Video} (hwf : Memory.wf v.outbuf) : RowFrame c y v (prepVideo c y v) := by
  obtain ⟨-, -, -, -, hcsel, houtbuf, hresult, -⟩ := prepVideo_spec c y v
  exact ⟨houtbuf.symm ▸ hwf, fun y' x _ => congrArg (Memory.read · (pixelKey y' x)) houtbuf, hcsel, hresult⟩

/-- A column in range is no pixel of another row, and none beyond the last column. -/
theorem RowFrame.lineColumn {v w : Video} {x : Nat} (hx : x < c.hPixels) (h : RowFrame c y v w) :
    RowFrame c y v (lineColumn c y w x) where
  outbufWf := lineColumn_outbuf_wf h.outbufWf x
  otherPixels y' x' hout := by
    have hne : ¬(y' = y ∧ x' = BitVec.ofNat 16 x) := by
      rintro ⟨rfl, rfl⟩
      rw [toNat_column hx] at hout
      exact hout.elim (· rfl) (Nat.not_le.2 hx)
    rw [pixelRead_lineColumn h.outbufWf, if_neg hne]
    exact h.otherPixels y' x' hout
  csel := (lineColumn_csel ..).trans h.csel
  result := (lineColumn_result ..).trans h.result

theorem RowFrame.lineVideo {v : Video} (hwf : Memory.wf v.outbuf) : RowFrame c y v (lineVideo c y v) :=
  lineVideo_induct c y v (RowFrame c y v) (.prepVideo hwf) fun _ _ => .lineColumn

end

/-- Settles O44, by the frame that PREP and every column keep. -/
theorem lineWritesItsOwnRowOnly : Obligations.LineWritesItsOwnRowOnly := by
  intro y s hwf
  obtain ⟨-, hpixels, hcsel, hresult⟩ := RowFrame.lineVideo (c := config) (y := y) hwf
  exact ⟨_, exec_line y s, hpixels, hcsel, hresult, rfl, rfl⟩

/-! ### What a row depends on -/

/-- Two video cores a row in progress cannot tell apart: they differ in the entries of levels neither enabled nor live, in
the output buffer and in the result port at most (R222; 10_state.md R31). -/
structure SameSources (v w : Video) : Prop where
  spr : v.spr = w.spr
  ve : v.ve = w.ve
  lst : v.lst = w.lst
  csel : v.csel = w.csel
  tileCalls : v.tileCalls = w.tileCalls
  levels : ∀ l, levelBit v.ve l = true ∨ levelBit v.lst l = true → v.level l = w.level l

section
variable {c : Config} {y : Byte} {v w : Video}

/-- Whatever the masks and the levels were, PREP rebuilds the masks, and the levels that it enables, from the slot
registers. -/
theorem SameSources.prepVideo (hspr : v.spr = w.spr) (hcsel : v.csel = w.csel) (htiles : v.tileCalls = w.tileCalls) :
    SameSources (prepVideo c y v) (prepVideo c y w) := by
  obtain ⟨hsprv, hlevelv, hvev, hlstv, hcselv, -, -, htilesv⟩ := prepVideo_spec c y v
  obtain ⟨hsprw, hlevelw, hvew, hlstw, hcselw, -, -, htilesw⟩ := prepVideo_spec c y w
  have hslot (a : Fin 16) := slot_congr c y (sprRead_congr hspr a)
  have henabled (a : Fin 16) : slotEnabled v a y = slotEnabled w a y := (hslot a).1
  have hfresh (a : Fin 16) : freshLevel c (advanceRow c y v a) a = freshLevel c (advanceRow c y w a) a := (hslot a).2.1
  have hbytes (a : Fin 16) (k : Fin 8) : sprRead (Machine.prepVideo c y v) a k = sprRead (Machine.prepVideo c y w) a k :=
    (hsprv a k).trans (((hslot a).2.2 k).trans (hsprw a k).symm)
  refine ⟨?_, mask_ext fun l => ?_, mask_ext fun l => ?_, ?_, ?_, fun l hl => ?_⟩
  · exact Vector.ext fun a ha => Vector.ext fun k hk => hbytes ⟨a, ha⟩ ⟨k, hk⟩
  · rw [hvev, hvew, henabled, henabled]
  · rw [hlstv, hlstw, henabled, henabled]
  · rw [hcselv, hcselw, hcsel]
  · rw [htilesv, htilesw, htiles]
  · rw [hlevelv, hlevelw, ← henabled, ← henabled, hfresh, hfresh]
    split
    · rfl
    · split
      · rfl
      next hhigh hlow => simp [hvev, hlstv, hhigh, hlow] at hl

theorem SameSources.hstart (h : SameSources v w) (m : Byte) : SameSources (hstartVideo m v) (hstartVideo m w) where
  spr := h.spr
  ve := h.ve
  lst := by rw [hstartVideo_lst, hstartVideo_lst, h.lst, h.ve]
  csel := h.csel
  tileCalls := h.tileCalls
  levels l hl := by
    rw [hstartVideo_ve, hstartVideo_lst, levelBit_or, levelBit_and, Bool.or_eq_true, Bool.and_eq_true] at hl
    refine h.levels l ?_
    obtain hve | hlst | ⟨hve, -⟩ := hl
    · exact .inl hve
    · exact .inr hlst
    · exact .inl hve

/-- What is read of a level under its live bit is the same on both sides. -/
theorem SameSources.live_and_eq (h : SameSources v w) (f : Level → Bool) (l : Fin 8) :
    (levelBit v.lst l && f (v.level l)) = (levelBit w.lst l && f (w.level l)) := by
  rw [← h.lst]
  cases hlive : levelBit v.lst l with
  | false => rfl
  | true => rw [h.levels l (.inr hlive)]

theorem SameSources.sample (h : SameSources v w) : SameSources (sample c v).1 (sample c w).1 := by
  obtain ⟨hlevelv, hlstv, -, -, hsprv, hvev, hcselv, -, -, htilesv⟩ := sample_spec c v
  obtain ⟨hlevelw, hlstw, -, -, hsprw, hvew, hcselw, -, -, htilesw⟩ := sample_spec c w
  refine ⟨?_, ?_, mask_ext fun l => ?_, ?_, ?_, fun l hl => ?_⟩
  · rw [hsprv, hsprw, h.spr]
  · rw [hvev, hvew, h.ve]
  · rw [hlstv, hlstw]
    exact h.live_and_eq (fun x => (sampleLevel c l x).2) l
  · rw [hcselv, hcselw, h.csel]
  · rw [htilesv, htilesw, h.tileCalls]
  · have hlevel : v.level l = w.level l := by
      rw [hvev, hlstv, Bool.and_eq_true] at hl
      exact h.levels l (hl.imp_right And.left)
    rw [hlevelv, hlevelw, h.lst, hlevel]

/-- SAMPLE returns what the live levels hold. -/
theorem SameSources.sample_snd_eq (h : SameSources v w) : (Machine.sample c v).2 = (Machine.sample c w).2 := by
  obtain ⟨-, -, hbitsv, hplbv, -⟩ := sample_spec c v
  obtain ⟨-, -, hbitsw, hplbw, -⟩ := sample_spec c w
  have hbits : (Machine.sample c v).2.sprbits = (Machine.sample c w).2.sprbits := by
    refine BitVec.eq_of_getLsbD_eq fun i _ => ?_
    rw [hbitsv, hbitsw]
    exact congrArg levelList.any (funext (h.live_and_eq fun x => x.latched.getLsbD i))
  have hplb : (Machine.sample c v).2.plbmask = (Machine.sample c w).2.plbmask := by
    refine mask_ext fun l => ?_
    rw [hplbv, hplbw, h.live_and_eq]
  exact congrArg₂ SampleOut.mk hbits hplb

theorem SameSources.gather_eq (h : SameSources v w) (x : U16) (o : SampleOut) : gather c v y x o = gather c w y x o := by
  have hcopy : cselCopy c v = cselCopy c w := by
    refine List.map_congr_left fun i _ => ?_
    rw [cselRead, cselRead, h.csel]
  rw [gather, gather, h.tileCalls, hcopy]

theorem SameSources.composedPixel_eq (h : SameSources v w) (x : U16) :
    composedPixel c y x v = composedPixel c y x w := by
  rw [composedPixel, composedPixel, h.sample_snd_eq, h.sample.gather_eq]

theorem SameSources.compose (h : SameSources v w) (x : U16) :
    SameSources (compose c y x v).1 (compose c y x w).1 :=
  have hs : SameSources (Machine.sample c v).1 (Machine.sample c w).1 := h.sample
  ⟨hs.spr, hs.ve, hs.lst, hs.csel, congrArg (· + 1) hs.tileCalls, hs.levels⟩

theorem SameSources.lineColumn (h : SameSources v w) (x : Nat) :
    SameSources (lineColumn c y v x) (lineColumn c y w x) := (h.hstart _).compose _

/-- Two rows in progress, side by side: the same up to the column reached. -/
structure SameRow (y : Byte) (n : Nat) (v w : Video) : Prop where
  sources : SameSources v w
  leftWf : Memory.wf v.outbuf
  rightWf : Memory.wf w.outbuf
  pixels : ∀ x : U16, x.toNat < n → pixelRead v y x = pixelRead w y x

theorem SameRow.prepVideo (hspr : v.spr = w.spr) (hcsel : v.csel = w.csel) (htiles : v.tileCalls = w.tileCalls)
    (hv : Memory.wf v.outbuf) (hw : Memory.wf w.outbuf) : SameRow y 0 (prepVideo c y v) (prepVideo c y w) where
  sources := .prepVideo hspr hcsel htiles
  leftWf := (prepVideo_outbuf c y v).symm ▸ hv
  rightWf := (prepVideo_outbuf c y w).symm ▸ hw
  pixels _ h := absurd h (Nat.not_lt_zero _)

/-- A column writes one pixel, the same on both sides, and leaves those before it. -/
theorem SameRow.lineColumn {n : Nat} (h : SameRow y n v w) :
    SameRow y (n + 1) (lineColumn c y v n) (lineColumn c y w n) where
  sources := h.sources.lineColumn n
  leftWf := lineColumn_outbuf_wf h.leftWf n
  rightWf := lineColumn_outbuf_wf h.rightWf n
  pixels x hx := by
    have hpixel : columnPixel c y v n = columnPixel c y w n := (h.sources.hstart _).composedPixel_eq _
    rw [pixelRead_lineColumn h.leftWf, pixelRead_lineColumn h.rightWf, hpixel]
    refine ite_congr rfl (fun _ => rfl) fun hne => h.pixels x ?_
    refine Nat.lt_of_le_of_ne (Nat.le_of_lt_succ hx) fun hn => hne ⟨rfl, ?_⟩
    rw [← hn, BitVec.ofNat_toNat, BitVec.setWidth_eq]

end

/-- Settles O45, by the induction over two rows side by side. -/
theorem linePixelsDoNotDependOnStaleState : Obligations.LinePixelsDoNotDependOnStaleState := by
  intro y s s' hspr hcsel htiles hwf hwf'
  obtain ⟨hsame, -, -, hpixels⟩ := lineVideo_induct_pair config y s.video s'.video (SameRow y)
    (.prepVideo hspr hcsel htiles hwf hwf') fun _ _ _ _ => .lineColumn
  exact ⟨_, _, exec_line y s, exec_line y s', hsame.spr, hsame.ve, hsame.lst, hpixels⟩

end Sys2Proof.Machine
end

section
/-!
Proofs for spec/44_controller.md: the line writes (R241, R242, R246 to R249, R258), the snapshot and the packed buffer
(R243 to R245), OUT_R (R254 to R256), the TICK (R250 to R253) and the shift it drives when nothing disturbs it (R252,
R259).
-/

namespace Sys2Proof.Machine

/-! ### The operations as functions of the controller's state -/

theorem exec_reqW (v : Bool) (s : State) : exec (.reqW v) s = .next (s.setPad (reqWrite config v s.pad)) := rfl

theorem exec_modeW (v : Bool) (s : State) : exec (.modeW v) s = .next (s.setPad (modeWrite v s.pad)) := rfl

theorem exec_ifW (v : Bool) (s : State) : exec (.ifW v) s = .next (s.setPad (interfaceWrite v s.pad)) := rfl

theorem exec_outR (s : State) : exec .outR s = .next (s.setPad (outRead config s.pad)) := rfl

theorem exec_tick_of_tpend {s : State} (hp : s.pad.tpend = true) :
    exec .tick s = .next (s.setPad (tick config s.pad)) := if_pos hp

@[simp] theorem State.setPad_self (s : State) : s.setPad s.pad = s := rfl

/-! ### The line writes -/

@[simp] theorem reqWrite_self (c : Config) (p : Pad) : reqWrite c p.req p = p := if_pos rfl

@[simp] theorem modeWrite_self (p : Pad) : modeWrite p.mode p = p := if_pos rfl

@[simp] theorem interfaceWrite_self (p : Pad) : interfaceWrite p.interface p = p := rfl

theorem reqWrite_falling (c : Config) {p : Pad} (hreq : p.req = true) (hmode : p.mode = true) :
    reqWrite c false p = { capture c p with req := false } := by
  have hedge : ¬false = p.req := by rw [hreq]; exact Bool.false_ne_true
  rw [reqWrite, if_neg hedge, if_pos ⟨hmode, rfl⟩]

/-- Only a falling edge in analog mode captures (R242, R258); a write of the level the line has falls under it too. -/
theorem reqWrite_of_not_falling (c : Config) {v : Bool} {p : Pad} (h : v = true ∨ p.mode = false) :
    reqWrite c v p = { p with req := v } := by
  by_cases hv : v = p.req
  · subst hv
    exact reqWrite_self c p
  · have hcapture : ¬(p.mode = true ∧ v = false) := by
      rintro ⟨hmode, rfl⟩
      obtain h | h := h
      · cases h
      · cases hmode.symm.trans h
    rw [reqWrite, if_neg hv, if_neg hcapture]

theorem modeWrite_false {p : Pad} (hmode : p.mode = true) :
    modeWrite false p = { cancel p with mode := false, out := idleOut } := by
  have hswitch : ¬false = p.mode := by rw [hmode]; exact Bool.false_ne_true
  rw [modeWrite, if_neg hswitch, if_pos rfl]

theorem modeWrite_true {p : Pad} (hmode : p.mode = false) : modeWrite true p = { p with mode := true } := by
  have hswitch : ¬true = p.mode := by rw [hmode]; exact Bool.false_ne_true.symm
  rw [modeWrite, if_neg hswitch, if_neg Bool.false_ne_true.symm]

/-- Settles O46: each line write of the level the line has is the identity on the controller. -/
theorem redundantLineWritesChangeNothing : Obligations.RedundantLineWritesChangeNothing := by
  intro s
  rw [exec_reqW, exec_modeW, exec_ifW, reqWrite_self, modeWrite_self, interfaceWrite_self, State.setPad_self]
  exact ⟨rfl, rfl, rfl⟩

theorem exec_reqW_falling {s : State} (hreq : s.pad.req = true) (hmode : s.pad.mode = true) :
    exec (.reqW false) s = .next (s.setPad { capture config s.pad with req := false }) := by
  rw [exec_reqW, reqWrite_falling config hreq hmode]

/-- Settles O47, by the capture, which names every field it writes; no hypothesis is on the timer. -/
theorem fallingEdgeCapturesAndSchedules : Obligations.FallingEdgeCapturesAndSchedules := fun _ hreq hmode =>
  ⟨_, exec_reqW_falling hreq hmode, rfl, rfl, rfl, rfl, rfl, rfl, rfl, rfl, rfl, rfl, rfl, rfl⟩

/-- Settles O48, by the write that does not capture. -/
theorem otherEdgesOnlyRecordTheLevel : Obligations.OtherEdgesOnlyRecordTheLevel := by
  intro v s h
  rw [exec_reqW, reqWrite_of_not_falling config h]

/-- Settles O51, by the three cases of a mode write. -/
theorem modeSwitchCancelsOnlyTowardsDigital : Obligations.ModeSwitchCancelsOnlyTowardsDigital := by
  refine fun s => ⟨fun hmode => ?_, fun hmode => ?_, ?_⟩
  · rw [exec_modeW, modeWrite_false hmode]
    rfl
  · rw [exec_modeW, modeWrite_true hmode]
  · rw [exec_modeW, modeWrite_self, State.setPad_self]

/-- Settles O52: the store is the operation's definition. -/
theorem interfaceWriteIsAPlainStore : Obligations.InterfaceWriteIsAPlainStore := exec_ifW

/-! ### The snapshot and the packed buffer -/

theorem buttonsAnswer_of_unbound {c : Config} (h : c.buttons = none) (n : Nat) : buttonsAnswer c n = 0xFFFF := by
  rw [buttonsAnswer, h]
  rfl

theorem axisAnswer_of_unbound {c : Config} (h : c.axis = none) (n : Nat) (ch : Fin 4) : axisAnswer c n ch = 0x00 := by
  rw [axisAnswer, h]
  rfl

/-- Settles O50: every field of a snapshot is one callback's answer. -/
theorem unboundCallbacksAnswerTheDefaults : Obligations.UnboundCallbacksAnswerTheDefaults := fun _ _ =>
  ⟨fun h => buttonsAnswer_of_unbound h _, fun h => ⟨axisAnswer_of_unbound h _ _, axisAnswer_of_unbound h _ _,
    axisAnswer_of_unbound h _ _, axisAnswer_of_unbound h _ _⟩⟩

theorem getLsbD_byte (x : U16) (start : Nat) (i : Fin 8) :
    (x.extractLsb' start 8).getLsbD i.val = x.getLsbD (start + i.val) := by
  rw [BitVec.getLsbD_extractLsb', decide_eq_true i.isLt, Bool.true_and]

/-- The mask of byte 0 is open but at bits 3:2, where it is the two bits shifted there (R245). -/
theorem getLsbD_buttonMask (x : BitVec 2) (i : Fin 8) :
    ((x.setWidth 8 <<< 2) ||| 0xF3#8).getLsbD i.val = (i.val != 2 && i.val != 3 || x.getLsbD (i.val - 2)) := by
  revert x i
  decide

/-- Bit `i - 2` of buttons 9:8 is button `i + 6`, which counts at the two places where the mask is not open. -/
theorem getLsbD_pack_zero (c : Config) (g : Snapshot) (i : Fin 8) :
    (pack c g)[0].getLsbD i.val =
      (g.btn.getLsbD i.val && (i.val != 2 && i.val != 3 || g.btn.getLsbD (i.val + 6))) := by
  have hbyte : (pack c g)[0] = g.btn.extractLsb' 0 8 &&& (((g.btn.extractLsb' 8 2).setWidth 8 <<< 2) ||| 0xF3#8) := rfl
  rw [hbyte, BitVec.getLsbD_and, getLsbD_buttonMask, getLsbD_byte, Nat.zero_add, BitVec.getLsbD_extractLsb']
  by_cases hi : i.val = 2 ∨ i.val = 3
  · have h2 : i.val - 2 < 2 := by omega
    have h6 : 8 + (i.val - 2) = i.val + 6 := by omega
    rw [decide_eq_true h2, Bool.true_and, h6]
  · have hopen : (i.val != 2 && i.val != 3) = true := by simpa using hi
    rw [hopen, Bool.true_or, Bool.true_or]

theorem getLsbD_pack_five (c : Config) (g : Snapshot) (i : Fin 8) :
    (pack c g)[5].getLsbD i.val = (g.btn.getLsbD (i.val + 8) && (c.pack5Mask g.btn).getLsbD i.val) := by
  have hbyte : (pack c g)[5] = g.btn.extractLsb' 8 8 &&& c.pack5Mask g.btn := rfl
  rw [hbyte, BitVec.getLsbD_and, getLsbD_byte, Nat.add_comm]

/-- Settles O49: the masked bytes bit by bit, and each axis byte as the two nibbles it was put together from. -/
theorem packedBufferLayout : Obligations.PackedBufferLayout := fun c g =>
  ⟨getLsbD_pack_zero c g,
    BitVec.extractLsb'_append_eq_left, BitVec.extractLsb'_append_eq_right,
    BitVec.extractLsb'_append_eq_left, BitVec.extractLsb'_append_eq_right,
    BitVec.extractLsb'_append_eq_left, BitVec.extractLsb'_append_eq_right,
    BitVec.extractLsb'_append_eq_left, BitVec.extractLsb'_append_eq_right,
    getLsbD_pack_five c g⟩

/-! ### OUT_R -/

theorem outRead_of_analog (c : Config) {p : Pad} (hmode : p.mode = true) :
    outRead c p = { p with result := some p.out } := if_pos hmode

theorem outRead_of_digital (c : Config) {p : Pad} (hmode : p.mode = false) :
    outRead c p = { countCalls p with result := some (digitalRead c p) } := if_neg (Bool.eq_false_iff.1 hmode)

/-- Settles O56, by the mode. -/
theorem outReadReturnsRegisterOrDigitalMap : Obligations.OutReadReturnsRegisterOrDigitalMap := by
  refine fun s => ⟨fun hmode => ?_, fun hmode => ?_⟩
  · rw [exec_outR, outRead_of_analog config hmode]
  · rw [exec_outR, outRead_of_digital config hmode]
    rfl

/-! ### One TICK -/

/-- The nibble step `k` of a shift presents (R253). -/
def shiftNibble (data : Vector Byte 6) (interface : Bool) (k : Fin 11) : Nibble :=
  bufferNibble data (nibbleIndex (⟨2 * k.val + 1, by omega⟩ : Fin 22) interface)

/-- Settles O55: the step index of count `2k + 1` is `k`, and XOR 1 swaps it with its pair. -/
theorem interfaceSwapsNibblePairs : Obligations.InterfaceSwapsNibblePairs := by
  intro k
  have hstep : (2 * k.val + 1) / 2 = k.val := by omega
  simp only [nibbleIndex_val, stepIndex_val, hstep, Bool.toNat_false, Bool.toNat_true]
  exact ⟨Nat.xor_zero k.val, fun he => Nat.xor_one_of_even (Nat.even_iff.2 he),
    fun ho => Nat.xor_one_of_odd (Nat.odd_iff.2 ho)⟩

section
variable (c : Config) (p : Pad)

theorem outAck_tick : outAck (tick c p).out = if p.tcount.val % 2 = 0 then c.ackEven else c.ackOdd := by
  obtain ⟨hout, -⟩ := tick_spec c p
  rw [hout, apply_ite outAck, outAck_outByte, outAck_outByte]

theorem outLh_tick : outLh (tick c p).out = if p.tcount.val % 2 = 0 then !outLh p.out else outLh p.out := by
  obtain ⟨hout, -⟩ := tick_spec c p
  rw [hout, apply_ite outLh, outLh_outByte, outLh_outByte]

theorem outData_tick : outData (tick c p).out = if p.tcount.val % 2 = 0 then outData p.out
    else bufferNibble p.data (nibbleIndex p.tcount p.interface) := by
  obtain ⟨hout, -⟩ := tick_spec c p
  rw [hout, apply_ite outData, outData_outByte, outData_outByte]

theorem outHigh_tick : (tick c p).out.extractLsb' 6 2 = 0 := by
  obtain ⟨hout, -⟩ := tick_spec c p
  rw [hout]
  split <;> exact outByte_high ..

end

/-- Settles O53: an even count is below 21, so the TICK reschedules. -/
theorem evenTickTogglesTheLine : Obligations.EvenTickTogglesTheLine := by
  intro s hp he
  obtain ⟨-, hnext, -, hdata, hreq, hmode, hif, hresult, hcalls⟩ := tick_spec config s.pad
  have hlt := s.pad.tcount_lt
  obtain ⟨hpend, hcount, hdue⟩ := hnext (by omega)
  exact ⟨_, exec_tick_of_tpend hp, (outLh_tick ..).trans (if_pos he), (outAck_tick ..).trans (if_pos he),
    (outData_tick ..).trans (if_pos he), outHigh_tick .., hpend, hcount, hdue, hdata, hreq, hmode, hif, hresult, hcalls,
    rfl, rfl⟩

/-- Settles O54, by the output of an odd count and the two ends of `tick_spec`: the next TICK, or the stop. -/
theorem oddTickPresentsANibble : Obligations.OddTickPresentsANibble := by
  intro s hp ho
  obtain ⟨-, hnext, hstop, hrest⟩ := tick_spec config s.pad
  obtain ⟨hdata, hreq, hmode, hif, hresult, hcalls⟩ := hrest
  have hodd : ¬s.pad.tcount.val % 2 = 0 := by omega
  exact ⟨_, exec_tick_of_tpend hp, (outLh_tick ..).trans (if_neg hodd), (outAck_tick ..).trans (if_neg hodd),
    (outData_tick ..).trans (if_neg hodd), outHigh_tick .., hnext, hstop, hdata, hreq, hmode, hif, hresult, hcalls,
    rfl, rfl⟩

/-! ### The undisturbed shift -/

/-- Settles O58: the steps are TICKs, each before the last counts one up, and the one of count 21 stops. -/
theorem undisturbedShiftStopsAfterCount21 : Obligations.UndisturbedShiftStopsAfterCount21 := by
  intro s hcmds hp
  have hlt := s.pad.tcount_lt
  refine ⟨?_, fun k hk => ?_⟩
  · obtain ⟨-, hcount, -⟩ := tick_iterate config s.pad hp (21 - s.pad.tcount.val) (by omega)
    have h21 : ((tick config)^[21 - s.pad.tcount.val] s.pad).tcount.val = 21 := by omega
    obtain ⟨-, -, hstop, -⟩ := tick_spec config ((tick config)^[21 - s.pad.tcount.val] s.pad)
    obtain ⟨hidle, hkept⟩ := hstop h21
    have hlast : 22 - s.pad.tcount.val = (21 - s.pad.tcount.val) + 1 := by omega
    refine ⟨_, run_ticks _ s hcmds hp (by omega), ?_⟩
    rw [State.setPad_pad, hlast, Function.iterate_succ_apply', hkept]
    exact ⟨hidle, h21⟩
  · obtain ⟨hpend, hcount, -⟩ := tick_iterate config s.pad hp k (by omega)
    exact ⟨_, run_ticks k s hcmds hp (by omega), hpend, hcount⟩

section
variable (c : Config) {p : Pad} (hp : p.tpend = true) (hzero : p.tcount.val = 0)
include hp hzero

theorem tcount_iterate_tick {n : Nat} (hn : n < 22) : ((tick c)^[n] p).tcount.val = n := by
  obtain ⟨-, hcount, -⟩ := tick_iterate c p hp n (by omega)
  omega

/-- L/H toggles with each even count, so its level after `n` TICKs is by the parity of `(n + 1) / 2`. -/
theorem outLh_iterate_tick {n : Nat} (hn : n ≤ 22) :
    outLh ((tick c)^[n] p).out = (outLh p.out ^^ decide ((n + 1) / 2 % 2 = 1)) := by
  induction n with
  | zero => exact (Bool.xor_false _).symm
  | succ n ih =>
    rw [Function.iterate_succ_apply', outLh_tick, tcount_iterate_tick c hp hzero (by omega), ih (by omega)]
    by_cases he : n % 2 = 0
    · have hflip : ((n + 1 + 1) / 2 % 2 = 1) ↔ ¬((n + 1) / 2 % 2 = 1) := by omega
      rw [if_pos he, decide_eq_decide.2 hflip, decide_not, Bool.xor_not]
    · have hsame : (n + 1 + 1) / 2 = (n + 1) / 2 := by omega
      rw [if_neg he, hsame]

/-- After the TICK of count `2k`: the even Ack level, L/H toggled for the `k + 1`st time, the data lines as before. -/
theorem out_after_even_tick (k : Fin 11) :
    outAck ((tick c)^[2 * k.val + 1] p).out = c.ackEven ∧
      outLh ((tick c)^[2 * k.val + 1] p).out = (outLh p.out ^^ k.val % 2 == 0) ∧
      outData ((tick c)^[2 * k.val + 1] p).out = outData ((tick c)^[2 * k.val] p).out := by
  have heven : ((tick c)^[2 * k.val] p).tcount.val % 2 = 0 := by
    rw [tcount_iterate_tick c hp hzero (by omega)]
    omega
  have hparity : ((2 * k.val + 1 + 1) / 2 % 2 = 1) ↔ k.val % 2 = 0 := by omega
  refine ⟨?_, ?_, ?_⟩
  · rw [Function.iterate_succ_apply', outAck_tick, if_pos heven]
  · rw [outLh_iterate_tick c hp hzero (by omega), decide_eq_decide.2 hparity]
    rfl
  · rw [Function.iterate_succ_apply', outData_tick, if_pos heven]

/-- After the TICK of count `2k + 1`: the odd Ack level, L/H as before, nibble `k` on the data lines. -/
theorem out_after_odd_tick (k : Fin 11) :
    outAck ((tick c)^[2 * k.val + 2] p).out = c.ackOdd ∧
      outLh ((tick c)^[2 * k.val + 2] p).out = (outLh p.out ^^ k.val % 2 == 0) ∧
      outData ((tick c)^[2 * k.val + 2] p).out = shiftNibble p.data p.interface k := by
  have hcount := tcount_iterate_tick c hp hzero (n := 2 * k.val + 1) (by omega)
  have hodd : ¬((tick c)^[2 * k.val + 1] p).tcount.val % 2 = 0 := by omega
  have hparity : ((2 * k.val + 2 + 1) / 2 % 2 = 1) ↔ k.val % 2 = 0 := by omega
  refine ⟨?_, ?_, ?_⟩
  · rw [Function.iterate_succ_apply', outAck_tick, if_neg hodd]
  · rw [outLh_iterate_tick c hp hzero (by omega), decide_eq_decide.2 hparity]
    rfl
  · obtain ⟨-, -, hdata, hif, -⟩ := tick_iterate c p hp (2 * k.val + 1) (by omega)
    have hfin : ((tick c)^[2 * k.val + 1] p).tcount = ⟨2 * k.val + 1, by omega⟩ := Fin.ext hcount
    rw [Function.iterate_succ_apply', outData_tick, if_neg hodd, hdata, hif, hfin, shiftNibble]

/-- Until the first odd count the data lines keep what they had; after that each nibble stays until the next. -/
theorem outData_before_even_tick (k : Fin 11) :
    outData ((tick c)^[2 * k.val] p).out = if k.val = 0 then outData p.out
      else shiftNibble p.data p.interface ⟨k.val - 1, by omega⟩ := by
  by_cases hk : k.val = 0
  · rw [if_pos hk, hk]
    rfl
  · have hprev : 2 * k.val = 2 * (k.val - 1) + 2 := by omega
    obtain ⟨-, -, hdata⟩ := out_after_odd_tick c hp hzero ⟨k.val - 1, by omega⟩
    rw [if_neg hk, hprev, hdata]

end

/-- From a shift pending at count 0 with the output quiescent: L/H starts at 0 and the data lines at 0xF. -/
theorem run_shows_shift {s : State} (hcmds : s.cmds = []) (hp : s.pad.tpend = true) (hzero : s.pad.tcount.val = 0)
    (hquiet : s.pad.out = 0x2F) (k : Fin 11) :
    (∃ t, core.run (2 * k.val + 1) s = .next t ∧ outAck t.pad.out = true ∧ outLh t.pad.out = (k.val % 2 == 0) ∧
      outData t.pad.out = if k.val = 0 then 0xF
        else shiftNibble s.pad.data s.pad.interface ⟨k.val - 1, by omega⟩) ∧
    (∃ t, core.run (2 * k.val + 2) s = .next t ∧ outAck t.pad.out = false ∧ outLh t.pad.out = (k.val % 2 == 0) ∧
      outData t.pad.out = shiftNibble s.pad.data s.pad.interface k) := by
  have hlow : outLh s.pad.out = false := by rw [hquiet]; rfl
  have hdata : outData s.pad.out = 0xF := by rw [hquiet]; rfl
  obtain ⟨hack, hlh, hkept⟩ := out_after_even_tick config hp hzero k
  obtain ⟨hack', hlh', hnib⟩ := out_after_odd_tick config hp hzero k
  rw [hlow, Bool.false_xor] at hlh hlh'
  rw [outData_before_even_tick config hp hzero k, hdata] at hkept
  exact ⟨⟨_, run_ticks _ s hcmds hp (by omega), hack, hlh, hkept⟩,
    ⟨_, run_ticks _ s hcmds hp (by omega), hack', hlh', hnib⟩⟩

/-- Settles O57: the edge leaves a shift pending at count 0 over the snapshot's buffer, and keeps the
quiescent output. -/
theorem analogReadExposesElevenNibbles : Obligations.AnalogReadExposesElevenNibbles := by
  intro s s0 hcmds hreq hmode hout hedge k
  obtain rfl := Host.Outcome.next.inj ((exec_reqW_falling hreq hmode).symm.trans hedge)
  exact run_shows_shift (s := s.setPad { capture config s.pad with req := false }) hcmds rfl rfl hout k

end Sys2Proof.Machine
end

section
/-!
Proofs for spec/60_exceptions.md: the independence of the two agents (R290), the step with no command left (R291, R292),
and which operations complete (R280, R282, R283).
-/

namespace Sys2Proof.Machine

/-! ### The two agents -/

/-- A video operation that completes once always completes, as one function of the video core. -/
theorem exec_video_of_next {i : Instr} {s t : State} (hi : i.agent = .video) (h : exec i s = .next t) :
    ∃ f : Video → Video, ∀ s', exec i s' = .next (s'.setVideo (f s'.video)) := by
  obtain hf | ⟨r, hr⟩ := exec_video i hi
  · exact hf
  · cases (hr s).symm.trans h

/-- A completed controller operation completes over any other video core too, and carries that core along. -/
theorem exec_setVideo_of_controller {j : Instr} {s u : State} (hj : j.agent = .controller) (h : exec j s = .next u)
    (v : Video) : exec j (s.setVideo v) = .next (u.setVideo v) := by
  obtain ⟨g, f, r, hf⟩ := exec_controller j hj
  rw [hf] at h
  split at h
  next hg =>
    obtain rfl := Host.Outcome.next.inj h
    exact (hf _).trans (if_pos hg)
  next => cases h

/-- Settles O12: the video operation is one function `f` of the video core, the controller operation neither reads nor
writes that core, so both orders end in the controller's state with `f` of the first video core. -/
theorem videoAndControllerOperationsCommute : Obligations.VideoAndControllerOperationsCommute := by
  intro i j s t u hi hj ht hu
  obtain ⟨f, hf⟩ := exec_video_of_next hi ht
  obtain rfl := Host.Outcome.next.inj ((hf s).symm.trans ht)
  have huv : u.video = s.video := video_of_exec_next hj hu
  exact ⟨u.setVideo (f s.video), exec_setVideo_of_controller hj hu _, huv ▸ hf u⟩

/-! ### The step with no command left -/

theorem idleStep_of_tpend {s : State} (hp : s.pad.tpend = true) : idleStep s = exec .tick s := if_pos hp

theorem idleStep_of_not_tpend {s : State} (hp : s.pad.tpend = false) : idleStep s = .next s :=
  if_neg (Bool.eq_false_iff.1 hp)

/-- Settles O8: with an empty queue the step is the idle step, which asks whether a TICK is pending. -/
theorem stepWithoutCommandsDeliversTickOrIdles : Obligations.StepWithoutCommandsDeliversTickOrIdles := fun _ hs =>
  ⟨fun hp => (step_of_cmds_nil hs).trans (idleStep_of_tpend hp),
    fun hp => (step_of_cmds_nil hs).trans (idleStep_of_not_tpend hp)⟩

/-! ### Which operations complete -/

/-- Of every operation but TICK, the configuration alone decides. -/
theorem accepted_of_ne_tick {i : Instr} (hi : i ≠ .tick) (s : State) : accepted i s = i.wellFormed config := by
  rw [accepted, bne_iff_ne.2 hi, Bool.true_or, Bool.and_true]

theorem accepted_cselW_iff (i x : Byte) (s : State) :
    accepted (.cselW i x) s = true ↔ i.toNat < config.cselBytes := by
  rw [accepted_of_ne_tick (i := .cselW i x) nofun]
  exact decide_eq_true_iff

theorem accepted_compose_iff (y : Byte) (x : U16) (s : State) :
    accepted (.compose y x) s = true ↔ x.toNat < config.hPixels := by
  rw [accepted_of_ne_tick (i := .compose y x) nofun]
  exact decide_eq_true_iff

/-- An operation refused outside its guard completes exactly inside it. -/
theorem exists_guarded_eq_next_iff {p : Prop} [Decidable p] {t : State} {r : Refusal} :
    (∃ t', (if p then .next t else .refused r : Host.Outcome State Fault Refusal) = .next t') ↔ p := by
  split
  next hp => exact iff_of_true ⟨t, rfl⟩ hp
  next hp => exact iff_of_false nofun hp

/-- Settles O9: `cselW`, `compose` and `tick` are the three operations with a guard, and the guard is what `accepted`
asks; the others have none. -/
theorem operationsCompleteExactlyWhenAccepted : Obligations.OperationsCompleteExactlyWhenAccepted := by
  intro i s
  cases i with
  | cselW i x => exact exists_guarded_eq_next_iff.trans (accepted_cselW_iff i x s).symm
  | compose y x => exact exists_guarded_eq_next_iff.trans (accepted_compose_iff y x s).symm
  | tick => exact exists_guarded_eq_next_iff
  | _ => exact iff_of_true ⟨_, rfl⟩ rfl

end Sys2Proof.Machine
end

section
/-!
Proofs for spec/70_reset_and_hazards.md: what RESET writes and what it leaves alone (R310, R311), and NOP (R314).
-/

namespace Sys2Proof.Machine

theorem exec_nop (s : State) : exec .nop s = .next s := rfl

/-- RESET gives the two masks and the controller's lines, buffer, output and timer their values in the state after reset
(R43), and keeps every other field. -/
theorem exec_reset (s : State) :
    exec .reset s = .next
      { video := { s.video with ve := Video.reset.ve, lst := Video.reset.lst }
        pad := { Pad.reset with tdue := s.pad.tdue, result := s.pad.result, calls := s.pad.calls }
        cmds := s.cmds } := rfl

/-- Settles O14: what RESET writes has the values of the state after reset (`resetStateHasTheSpecsValues`), and each field
it keeps is the old one. -/
theorem resetCommandSetsMasksAndController : Obligations.ResetCommandSetsMasksAndController := by
  intro s
  obtain ⟨hve, hlst, hreq, hmode, hinterface, hdata, hout, htpend, htcount⟩ := resetStateHasTheSpecsValues
  exact ⟨_, exec_reset s, hve, hlst, hreq, hmode, hinterface, hdata, hout, htpend, htcount,
    rfl, rfl, rfl, rfl, rfl, rfl, rfl, rfl, rfl, rfl⟩

/-- Settles O15: NOP's meaning is to go on in the state it finds. -/
theorem nopChangesNothing : Obligations.NopChangesNothing := exec_nop

end Sys2Proof.Machine
end

section
/-!
Proofs for spec/95_test_vectors.md section 7: the listed command words, accepted (R109) and refused (R110).
-/

namespace Sys2Proof

/-! ### The rows that refuse a listed word (R110) -/

theorem decode_sprW_slotAbove15 {a b c : Byte} (ha : ¬ a.toNat < 16) :
    decode (word 0x10 a b c) = .error .slotAbove15 :=
  (decode_word 0x10 a b c).trans (dif_neg ha)

theorem decode_sprW_byteIndexAbove7 {a b c : Byte} (ha : a.toNat < 16) (hb : ¬ b.toNat < 8) :
    decode (word 0x10 a b c) = .error .byteIndexAbove7 :=
  (decode_word 0x10 a b c).trans ((dif_pos ha).trans (dif_neg hb))

theorem decode_prep_fieldNotZero {a b c : Byte} (hab : ¬ (a = 0 ∧ b = 0)) :
    decode (word 0x13 a b c) = .error .fieldNotZero :=
  (decode_word 0x13 a b c).trans (if_neg hab)

theorem decode_reqW_levelNotABit {c : Byte} (h0 : c ≠ 0) (h1 : c ≠ 1) :
    decode (word 0x20 0 0 c) = .error .levelNotABit :=
  (decode_word 0x20 0 0 c).trans ((if_neg h0).trans (if_neg h1))

/-! ### The listed words -/

theorem decode_eq_ok_of_encode_eq {w : Command} {i : Instr} (h : encode i = w) : decode w = .ok i :=
  h ▸ decode_encode i

/-- Settles O4: each accepted word is the encoding of its operation, and each refused word is one its row refuses (or,
with `op` 0x02, one of no row). -/
theorem listedWordsDecodeAsListed : Obligations.ListedWordsDecodeAsListed := by
  refine ⟨?nop, ?reset, ?sprW, ?cselW, ?prep, ?compose, ?ifW, ?noSuchOp, ?slot, ?byteIndex, ?field, ?level⟩
  case nop | reset | sprW | cselW | prep | compose | ifW => exact decode_eq_ok_of_encode_eq (by decide)
  case noSuchOp => exact decode_word 0x02 0 0 0
  case slot => exact decode_sprW_slotAbove15 (a := 0x10) (b := 0) (c := 0) (by decide)
  case byteIndex => exact decode_sprW_byteIndexAbove7 (a := 0) (b := 8) (c := 0) (by decide) (by decide)
  case field => exact decode_prep_fieldNotZero (a := 1) (b := 0) (c := 0x10) (by decide)
  case level => exact decode_reqW_levelNotABit (c := 2) (by decide) (by decide)

end Sys2Proof
end
